-- ==== Sys2Proof/Word.lean ====
section
/-! DEFINITION. The bit widths the spec gives to values: bytes, half-words, 32-bit bus words and the 14-bit
byte offsets of the 16 KiB window. Everything that computes with them stands in Decode.lean and Machine/. -/

namespace Sys2Proof

/-- D00 §3 "Byte", 0 to 255, unsigned (R12). -/
abbrev Byte := BitVec 8

/-- A 16-bit field: UNIT_WIDTH (R31), PULSE_COUNT (R35), EXP_VALID (R36). -/
abbrev Half := BitVec 16

/-- A 32-bit register, bus word, command word or pulse duration (R71, R74, R90). -/
abbrev Word := BitVec 32

/-- A byte offset in the 16 KiB window 0x0000 to 0x3FFF (R72). -/
abbrev Offset := BitVec 14

end Sys2Proof
end

