-- ==== Sys2Proof/Machine/Codec.lean ====
section
/-! DEFINITION. The four pure functions of R15: crc (R130), frame (R140), the pulse encoding (R150) and the
delay buckets (R170 to R173). They take the configured table and stop setting as arguments (R8). -/

namespace Sys2Proof.Machine

/-- One step of the table generator of R9: shift right, and XOR 0x8C where a 1 fell out. -/
def crcTableStep (c : Byte) : Byte :=
  if c.getLsbD 0 then (c >>> 1) ^^^ 0x8C else c >>> 1

/-- The byte the generator of R9 leaves for index `i`. -/
def crcTableEntry (i : Byte) : Byte := Nat.repeat crcTableStep 8 i

/-- `T[i]` for a byte index (R13). -/
def tableAt (T : Vector Byte 256) (i : Byte) : Byte := T[i.toNat]

/-- crc(s), with accumulator 0 at the start and `acc <- T[acc xor byte]` for each byte (R130). -/
def crc (T : Vector Byte 256) (s : List Byte) : Byte :=
  s.foldl (fun acc b => tableAt T (acc ^^^ b)) 0

/-- The length byte, len(p) + 143 (R141). Every use has len(p) at most 112, so it fits a byte (R145). -/
def lengthByte (p : List Byte) : Byte := BitVec.ofNat 8 (p.length + Config.lenOffset)

/-- frame(p): the length byte, the payload, and the CRC of both (R140, R142). -/
def frame (T : Vector Byte 256) (p : List Byte) : List Byte :=
  lengthByte p :: p ++ [crc T (lengthByte p :: p)]

/-- The two-field encoder state of R150. Level `false` is 0, on; level `true` is 1, off (R151). -/
structure Encoder where
  /-- D00's currentLevel. -/
  level : Bool
  /-- D00's accumulatedDurations, the newest first. -/
  durations : List Nat
  deriving DecidableEq, Repr

/-- Level 0 and no duration (R150). -/
def encoderStart : Encoder := ⟨false, []⟩

/-- extendOrAppend(b): the first symbol starts a pulse, the same level widens the last pulse, a new level
appends one (R150). -/
def extendOrAppend (w : Nat) (e : Encoder) (b : Bool) : Encoder :=
  match e.durations with
  | [] => ⟨b, [w]⟩
  | d :: ds => if b = e.level then ⟨e.level, (d + w) :: ds⟩ else ⟨b, w :: d :: ds⟩

/-- A byte's nine symbols: the start symbol 0 and then its bits, bit 0 first (R152, R153). -/
def byteSymbols (b : Byte) : List Bool :=
  false :: (List.range 8).map b.getLsbD

/-- The symbols of all bytes; with STOP_EACH_BYTE a symbol 1 follows each byte but the last (R150, R155). -/
def dataSymbols (stopEach : Bool) : List Byte → List Bool
  | [] => []
  | [b] => byteSymbols b
  | b :: bs => byteSymbols b ++ (if stopEach then [true] else []) ++ dataSymbols stopEach bs

/-- The whole symbol stream, with the final stop symbol 1 (R150, R154). -/
def symbols (stopEach : Bool) (s : List Byte) : List Bool := dataSymbols stopEach s ++ [true]

/-- encode(s, w): every symbol of the stream pushed through extendOrAppend (R150). -/
def pulseEncode (stopEach : Bool) (s : List Byte) (w : Nat) : List Nat :=
  ((symbols stopEach s).foldl (extendOrAppend w) encoderStart).durations.reverse

/-- The offset (16 - i) * 100 of bucket `i` (R43, R170). -/
def bucketOffset (i : Nat) : Nat := (Config.nBuckets - i) * Config.bucketWidth

/-- bucket(t, i) on unbounded integers (R170). -/
def bucket (t i : Nat) : Int := (t : Int) - (bucketOffset i : Int)

/-- Bucket `i` is valid when its output time is not negative (R172). -/
def bucketValid (t i : Nat) : Bool := decide (0 ≤ bucket t i)

/-- The delay code of bucket `i` (R171). -/
def delayCode (i : Fin 16) : Byte := Config.delayTable[i]

/-- What a valid bucket carries: the frame of the delay code and the raw command (R173). -/
def slotFrame (T : Vector Byte 256) (r : List Byte) (i : Fin 16) : List Byte := frame T (delayCode i :: r)

/-- EXP_TIME[i] after EXPAND: the output time, or 0 for a skipped bucket (R174, R175). -/
def slotTime (t : Nat) (i : Fin 16) : Word :=
  if bucketValid t i then BitVec.ofInt 32 (bucket t i) else 0

/-- EXP_LEN[i] after EXPAND with `n` raw bytes (R174, R175). -/
def slotLen (t n : Nat) (i : Fin 16) : Byte :=
  if bucketValid t i then BitVec.ofNat 8 (n + 3) else 0

/-- EXP_VALID after EXPAND: `mask | (1 << i)` for each valid bucket (R174, R36). -/
def validMask (t : Nat) : Half :=
  (List.finRange 16).foldl (fun m (i : Fin 16) => if bucketValid t i then m ||| ((1 : Half) <<< i.val) else m) 0

end Sys2Proof.Machine
end

