-- ==== Sys2Proof/Machine/State.lean ====
section
/-! DEFINITION. The machine's state as plain data: every register and array of 10_state.md, the engine, and the
model's own fields that hold the outside world's part (pending host accesses, whose turn it is, what reads have
returned) and the counters behind the free values. With it the reasons a step can stop and the reset state. -/

namespace Sys2Proof.Machine

/-- Storage, keyed by byte offset in the window (R38 to R41): (offset, byte) pairs with strictly rising offsets.
An unlisted offset is one nothing has written since the last reset; it has no written value (R45, log 1), so a
write always lists its byte. -/
abbrev Memory := List Host.Cell

/-- The offsets that are storage: IN_BUF and OUT_BUF, the sixteen EXP_FRAME slots, PULSE_BUF (R38 to R41). -/
def isStorage (a : Nat) : Bool :=
  (decide (0x100 ≤ a) && decide (a < 0x200)) || (decide (0x800 ≤ a) && decide (a < 0x1000)) ||
    (decide (0x2000 ≤ a) && decide (a < 0x3400))

/-- The canonical form: offsets strictly rise, and each is a storage offset. -/
abbrev Memory.wf (m : Memory) : Prop :=
  (m.map Prod.fst).Pairwise (· < ·) ∧ ∀ c ∈ m, isStorage c.1 = true

/-- The two agents of R7. -/
inductive Agent where
  /-- The bus master (and the reset input, which the outside world drives too). -/
  | host
  /-- The block's sequencer. -/
  | engine
  deriving DecidableEq, Repr

/-- ENGINE: idle, or owing the execute step of the issued word (R46, R110). -/
inductive Engine where
  /-- IDLE. -/
  | idle
  /-- RUN(v). -/
  | run (v : Word)
  deriving DecidableEq, Repr

/-- The result codes a completion can report (R190). -/
inductive ResultCode where
  /-- 0, OK. -/
  | ok
  /-- 1, ILLEGAL_CMD. -/
  | illegalCmd
  /-- 2, LEN_RANGE. -/
  | lenRange
  /-- 3, PARAM. -/
  | param
  deriving DecidableEq, Repr

/-- What the outside world can do next: the host instructions of R97, the same two accesses by bus address
(R72), and the reset input (R210). -/
inductive Input where
  /-- WR off, v: MemWrite(off, 4, v). -/
  | wr (off : Offset) (v : Word)
  /-- RD off: MemRead(off, 4). -/
  | rd (off : Offset)
  /-- POLL off, mask, val: MemRead(off, 4) again and again until (t AND mask) = val. -/
  | poll (off : Offset) (mask val : Word)
  /-- A 32-bit write at a bus address, which reaches the block only inside its window. -/
  | busWr (a : Nat) (v : Word)
  /-- A 32-bit read at a bus address, which reaches the block only inside its window. -/
  | busRd (a : Nat)
  /-- The reset input is asserted (R210). -/
  | assertReset
  /-- The reset input is released (R210). -/
  | releaseReset
  deriving DecidableEq, Repr

/-- What a word of the window names (the register map of 10_state.md §2, R73). Buffer words carry their word
index in the buffer. -/
inductive Loc where
  | id | cmd | status | irqEn | len | unitWidth | absTime | result | outLen | pulseCount | expValid
  | expTime (i : Fin 16)
  | expLen (i : Fin 16)
  | inBuf (m : Fin 32)
  | outBuf (m : Fin 32)
  | expFrame (i : Fin 16) (m : Fin 32)
  | pulseBuf (j : Fin 1280)
  | reserved
  deriving DecidableEq, Repr

/-- The whole state. -/
structure State where
  /-- CMD_LAST, read through CMD (R22, R48). -/
  cmdLast : Word
  /-- STATUS bit 0, BUSY (R24). -/
  busy : Bool
  /-- STATUS bit 1, DONE (R25). -/
  done : Bool
  /-- STATUS bit 2, ERR, sticky (R26). -/
  err : Bool
  /-- STATUS bit 3, WERR, sticky (R26). -/
  werr : Bool
  /-- STATUS bits 7:4, ERRCODE (R23, R190; log 12). -/
  errCode : BitVec 4
  /-- IRQ_EN bit 0, IE (R29). -/
  ie : Bool
  /-- LEN bits 7:0 (R30). -/
  len : Byte
  /-- UNIT_WIDTH bits 15:0 (R31). -/
  unitWidth : Half
  /-- ABS_TIME (R32). -/
  absTime : Word
  /-- RESULT bits 7:0 (R33). -/
  result : Byte
  /-- OUT_LEN bits 7:0 (R34). -/
  outLen : Byte
  /-- PULSE_COUNT bits 15:0 (R35). -/
  pulseCount : Half
  /-- EXP_VALID bits 15:0 (R36). -/
  expValid : Half
  /-- EXP_TIME[0..15] (R37). -/
  expTime : Vector Word 16
  /-- EXP_LEN[0..15] bits 7:0 (R37). -/
  expLen : Vector Byte 16
  /-- IN_BUF, OUT_BUF, EXP_FRAME and PULSE_BUF (R38 to R41). -/
  mem : Memory
  /-- ENGINE (R46). -/
  engine : Engine
  /-- The level of the reset input: true while it is asserted (R210). -/
  resetHeld : Bool
  /-- The model's own (log 3): what the outside world has still to do, oldest first (R80). -/
  pending : List Input
  /-- The model's own (log 4): which agent moves at each coming step, oldest first; the engine's turn where the
  list has ended, so that no operation waits for ever (R80, R115). -/
  turns : List Agent
  /-- The model's own (log 3): the words host reads have returned, newest first (R81). -/
  answers : List Word
  /-- The model's own (log 2): how many BUSY-window words have been drawn (U2). -/
  draws : Nat
  /-- The model's own (log 1): how many times the contents of storage have become unspecified anew since State.reset,
  by a reset or by a write to storage while reset is asserted (U1, R211). -/
  epoch : Nat
  deriving DecidableEq, Repr

/-- Why a step can fault. The block has no trap and no bus error (R195, R75); the one fault is the spec's own
rule for a model (U6). -/
inductive Fault where
  /-- Raised by a host read of STATUS (an RD, a POLL or a bus read) in a state whose ERRCODE is 4 to 15, values
  this edition never produces (U6). Safe: the model stops, and no state that a run reaches holds such a value. -/
  | reservedErrCode (code : BitVec 4)
  deriving DecidableEq, Repr

/-- Why a step can be refused. -/
inductive Refusal where
  /-- Raised by an arm of exec whose instruction has no meaning yet; no arm raises it now. Safe. -/
  | notModelled (mnemonic : String)
  deriving DecidableEq, Repr

/-- What a step or a meaning answers. -/
abbrev Result := Host.Outcome State Fault Refusal

/-- The machine right after reset: the values of R212, storage unwritten (R211), the engine idle (R210, R214),
the reset input released (log 5), and nothing pending from outside (log 3, log 4). -/
def State.reset : State where
  cmdLast := 0
  busy := false
  done := false
  err := false
  werr := false
  errCode := 0
  ie := false
  len := 0
  unitWidth := Config.unitWidthReset
  absTime := 0
  result := 0
  outLen := 0
  pulseCount := 0
  expValid := 0
  expTime := Vector.replicate 16 0
  expLen := Vector.replicate 16 0
  mem := []
  engine := .idle
  resetHeld := false
  pending := []
  turns := []
  answers := []
  draws := 0
  epoch := 0

end Sys2Proof.Machine
end

