-- ==== Sys2Proof/Machine/Flags.lean ====
section
/-! DEFINITION. The STATUS word and its bits (R23 to R26, R190), and the interrupt level (R49, R196). -/

namespace Sys2Proof.Machine

/-- A flag as a number, for packing. -/
def flagBit (b : Bool) (k : Nat) : Word := if b then (1 : Word) <<< k else 0

/-- The code a result has in ERRCODE (R190). -/
def ResultCode.bits (c : ResultCode) : BitVec 4 :=
  match c with
  | .ok => 0
  | .illegalCmd => 1
  | .lenRange => 2
  | .param => 3

/-- STATUS as the host reads it: BUSY, DONE, ERR, WERR in bits 0 to 3, ERRCODE in 7:4, zeros above (R23). -/
def statusWord (s : State) : Word :=
  flagBit s.busy 0 ||| flagBit s.done 1 ||| flagBit s.err 2 ||| flagBit s.werr 3 ||| (s.errCode.setWidth 32 <<< 4)

/-- The effect of a STATUS write: writing 1 clears DONE, ERR or WERR, and nothing else changes (R23, R79). -/
def clearFlags (v : Word) (s : State) : State :=
  { s with
    done := s.done && !v.getLsbD 1
    err := s.err && !v.getLsbD 2
    werr := s.werr && !v.getLsbD 3 }

/-- A dropped write sets WERR and has no other effect (R26, R192). -/
def dropWrite (s : State) : State := { s with werr := true }

/-- The interrupt output, STATUS.DONE AND IRQ_EN.IE at every instant (R49, R196). -/
def irq (s : State) : Bool := s.done && s.ie

end Sys2Proof.Machine
end

