-- ==== Sys2Proof/Machine/Ops.lean ====
section
/-! DEFINITION. The named operations over storage and registers: reading and writing bytes and words of
storage, the register map, issue, completion (with `raise CmdError`, the block's only kind of exception), and
reset. -/

namespace Sys2Proof.Machine

/-! ### Storage -/

/-- The offset of IN_BUF (R38). -/
def inBufBase : Nat := 0x100

/-- The offset of OUT_BUF (R39). -/
def outBufBase : Nat := 0x180

/-- The offset of EXP_FRAME[i] (R40). -/
def expFrameBase (i : Nat) : Nat := 0x800 + 0x80 * i

/-- The offset of PULSE_BUF (R41). -/
def pulseBufBase : Nat := 0x2000

/-- The written value of a storage offset, none where nothing has written it since the last reset. -/
def Memory.lookup (m : Memory) (a : Nat) : Option Byte := (m.find? (fun c => c.1 == a)).map Prod.snd

/-- Bytes laid out from offset `a` upwards. -/
def Memory.block (a : Nat) : List Byte → Memory
  | [] => []
  | b :: bs => (a, b) :: Memory.block (a + 1) bs

/-- Storing bytes from offset `a` upwards: the entries of that range are replaced, every other entry stays. -/
def Memory.writeBytes (m : Memory) (a : Nat) (bs : List Byte) : Memory :=
  m.filter (fun c => decide (c.1 < a)) ++ Memory.block a bs ++ m.filter (fun c => decide (a + bs.length ≤ c.1))

/-- The byte a storage offset holds: the written one, or whatever the RAM holds (R45, log 1). -/
def byteAt (s : State) (a : Nat) : Byte := (s.mem.lookup a).getD (Config.ramByte s.epoch a)

/-- `n` bytes from offset `a` upwards. -/
def bytesAt (s : State) (a n : Nat) : List Byte := (List.range n).map (fun k => byteAt s (a + k))

/-- The word at offset `a`, the byte at the lowest offset in bits 7:0 (R70, R77). -/
def wordAt (s : State) (a : Nat) : Word :=
  byteAt s (a + 3) ++ byteAt s (a + 2) ++ byteAt s (a + 1) ++ byteAt s a

/-- The four bytes of a word, bits 7:0 first (R70). -/
def wordBytes (v : Word) : List Byte :=
  [v.extractLsb' 0 8, v.extractLsb' 8 8, v.extractLsb' 16 8, v.extractLsb' 24 8]

/-- Storing bytes into the machine's storage. -/
def storeBytes (a : Nat) (bs : List Byte) (s : State) : State := { s with mem := s.mem.writeBytes a bs }

/-- Entry `j` of PULSE_BUF (R41). -/
def pulseAt (s : State) (j : Nat) : Word := wordAt s (pulseBufBase + 4 * j)

/-- The first `n` entries of PULSE_BUF. -/
def pulsesAt (s : State) (n : Nat) : List Word := (List.range n).map (pulseAt s)

/-- The bytes by which PULSE_BUF holds a list of durations; each fits 32 bits (R159). -/
def pulseBytes (d : List Nat) : List Byte := d.flatMap (fun x => wordBytes (BitVec.ofNat 32 x))

/-! ### The register map -/

/-- The window word an access at `off` names: off AND 0x3FFC (R75, R77). -/
def wordOffset (off : Offset) : Nat := (off &&& 0x3FFC).toNat

/-- The register map of 10_state.md §2 and the reserved ranges of R73, by the offset of a word. -/
def locAt (w : Nat) : Loc :=
  if w = 0x000 then .id
  else if w = 0x004 then .cmd
  else if w = 0x008 then .status
  else if w = 0x00C then .irqEn
  else if w = 0x010 then .len
  else if w = 0x014 then .unitWidth
  else if w = 0x018 then .absTime
  else if w = 0x01C then .result
  else if w = 0x020 then .outLen
  else if w = 0x024 then .pulseCount
  else if w = 0x028 then .expValid
  else if w < 0x040 then .reserved
  else if w < 0x080 then .expTime (Fin.ofNat 16 ((w - 0x040) / 4))
  else if w < 0x0C0 then .expLen (Fin.ofNat 16 ((w - 0x080) / 4))
  else if w < 0x100 then .reserved
  else if w < 0x180 then .inBuf (Fin.ofNat 32 ((w - 0x100) / 4))
  else if w < 0x200 then .outBuf (Fin.ofNat 32 ((w - 0x180) / 4))
  else if w < 0x800 then .reserved
  else if w < 0x1000 then .expFrame (Fin.ofNat 16 ((w - 0x800) / 0x80)) (Fin.ofNat 32 ((w - 0x800) % 0x80 / 4))
  else if w < 0x2000 then .reserved
  else if w < 0x3400 then .pulseBuf (Fin.ofNat 1280 ((w - 0x2000) / 4))
  else .reserved

/-- What an access at `off` reaches (R75, R77). -/
def locate (off : Offset) : Loc := locAt (wordOffset off)

/-- The offset of the window a bus address reaches: `a - BASE` when BASE ≤ a < BASE + 0x4000, none where the
block does not see the address (R72; log 9). -/
def windowOffset (a : Nat) : Option Offset :=
  if Config.base ≤ a ∧ a < Config.base + 0x4000 then some (BitVec.ofNat 14 (a - Config.base)) else none

/-! ### Issue, completion, reset -/

/-- issue(v): CMD_LAST takes the word, BUSY is set, DONE is cleared, and the engine owes one execute step
(R110). -/
def issue (v : Word) (s : State) : State :=
  { s with cmdLast := v, busy := true, done := false, engine := .run v }

/-- complete(code): ERRCODE takes the code, a nonzero code sets ERR, BUSY is cleared, DONE is set, and the
engine is idle (R114). -/
def complete (code : ResultCode) (s : State) : State :=
  { s with
    errCode := code.bits
    err := if code = .ok then s.err else true
    busy := false
    done := true
    engine := .idle }

/-- raise CmdError(code): the execute step performs complete(code) and writes no output. This is the block's
one way to report an error; there is no trap entry to take and none to return from (R193, R112, R195). -/
def raiseCmdError (code : ResultCode) (s : State) : State := complete code s

/-- The execute step of an illegal word: ILLEGAL_CMD and nothing else (R93, R111, R112). -/
def execIllegal (s : State) : Result := .next (raiseCmdError .illegalCmd s)

/-- What the reset input does when it is asserted, and again when it is released: every register takes its reset value,
the engine is idle, a running operation is abandoned, and all storage counts as unwritten with new RAM contents (R210,
R211). `held` is the level of the reset input from then on. What the outside world still has to do, and what it has
read, is not the block's and stays (log 3, log 5). -/
def resetBlock (held : Bool) (s : State) : State :=
  { State.reset with
    resetHeld := held
    pending := s.pending
    turns := s.turns
    answers := s.answers
    draws := s.draws
    epoch := s.epoch + 1 }

/-- Releasing the reset input; where it is not asserted there is nothing to release (R210). -/
def releaseReset (s : State) : State := if s.resetHeld then resetBlock false s else s

/-- A write to storage while reset is asserted: no location counts as written by it, and what the RAM holds after it is
unspecified (R210, R211; log 5). -/
def unsettleStorage (s : State) : State := { s with epoch := s.epoch + 1 }

end Sys2Proof.Machine
end

