-- ==== Sys2Proof/Syntax.lean ====
section
/-! DEFINITION. The commands of spec/opcode_table.json, one constructor a row. A command word has no operand
fields (R90): every operand comes from the operand registers and IN_BUF (R95), so no constructor carries one. -/

namespace Sys2Proof

/-- The six operations of the opcode map (R91). -/
inductive Instr where
  /-- NOP, R118. -/
  | nop
  /-- CRC, R131. -/
  | crc
  /-- FRAME, R143. -/
  | frame
  /-- ENCODE, R157. -/
  | encode
  /-- FRAME_ENC, R158. -/
  | frameEnc
  /-- EXPAND, R174. -/
  | expand
  deriving DecidableEq, Repr

end Sys2Proof
end

