-- ==== Sys2Proof/Machine/Operands.lean ====
section
/-! DEFINITION. The operands of an operation (R95) and the checks on them (R94, R111), with the shape every
execute step has (R113). -/

namespace Sys2Proof.Machine

/-- LEN as an unsigned byte count (R95). -/
def lenOperand (s : State) : Nat := s.len.toNat

/-- UNIT_WIDTH as an unsigned width (R95). -/
def unitWidthOperand (s : State) : Nat := s.unitWidth.toNat

/-- ABS_TIME as an unsigned time (R95). -/
def absTimeOperand (s : State) : Nat := s.absTime.toNat

/-- The input sequence IN_BUF[0] to IN_BUF[LEN-1] (R95). -/
def inputBytes (s : State) : List Byte := bytesAt s inBufBase (lenOperand s)

/-- The least and the greatest legal LEN of an operation, none where LEN is not checked (R94). -/
def lenLimits (i : Instr) : Option (Nat × Nat) :=
  match i with
  | .nop => none
  | .crc => some (0, Config.inBufBytes)
  | .frame => some (0, Config.maxPayload)
  | .encode => some (1, Config.inBufBytes)
  | .frameEnc => some (0, Config.maxPayload)
  | .expand => some (0, Config.maxRawExpand)

/-- Whether a LEN of `n` is in an operation's range (R94). -/
def lenLegal (i : Instr) (n : Nat) : Bool :=
  match lenLimits i with
  | none => true
  | some (lo, hi) => decide (lo ≤ n) && decide (n ≤ hi)

/-- Whether an operation reads UNIT_WIDTH, which must then be positive (R94, R31). -/
def readsUnitWidth (i : Instr) : Bool :=
  match i with
  | .nop => false
  | .crc => false
  | .frame => false
  | .encode => true
  | .frameEnc => true
  | .expand => false

/-- check(v) for a legal word: LEN_RANGE before PARAM (R111, R194). -/
def checkOperands (i : Instr) (s : State) : ResultCode :=
  if lenLegal i (lenOperand s) then
    if readsUnitWidth i && unitWidthOperand s == 0 then .param else .ok
  else .lenRange

/-- The execute step of a legal word: the check, then either the operation's effect and complete(OK), or
raise CmdError(code) and no other effect (R112, R113). -/
def executeStep (i : Instr) (effect : State → State) (s : State) : Result :=
  match checkOperands i s with
  | .ok => .next (complete .ok (effect s))
  | .illegalCmd => .next (raiseCmdError .illegalCmd s)
  | .lenRange => .next (raiseCmdError .lenRange s)
  | .param => .next (raiseCmdError .param s)

end Sys2Proof.Machine
end

