-- ==== Sys2Proof/Machine/Crc.lean ====
section
/-! DEFINITION. The CRC family: CRC (R131). -/

namespace Sys2Proof.Machine

/-- RESULT takes the CRC of the input (R131). -/
def crcEffect (c : Config) (s : State) : State := { s with result := crc c.crcTable (inputBytes s) }

/-- CRC under a configuration (R131, R8). -/
def execCrcWith (c : Config) (s : State) : Result := executeStep .crc (crcEffect c) s

/-- CRC (R131). -/
def execCrc (s : State) : Result := execCrcWith Config.hardware s

end Sys2Proof.Machine
end

