-- ==== Sys2Proof/Machine/Delay.lean ====
section
/-! DEFINITION. The delay-bucket family: EXPAND (R174). -/

namespace Sys2Proof.Machine

/-- Bucket `i`'s frame goes to EXP_FRAME[i][0..] where the bucket is valid; a skipped slot's bytes stay
(R174, R175). -/
def storeSlot (c : Config) (t : Nat) (r : List Byte) (s : State) (i : Fin 16) : State :=
  if bucketValid t i then storeBytes (expFrameBase i.val) (slotFrame c.crcTable r i) s else s

/-- All slots in bucket order (R174, R181). -/
def storeSlots (c : Config) (t : Nat) (r : List Byte) (s : State) : State :=
  (List.finRange 16).foldl (storeSlot c t r) s

/-- EXPAND's effect: the slots' frames, and EXP_TIME, EXP_LEN and EXP_VALID of all sixteen (R174, R37). -/
def expandEffect (c : Config) (s : State) : State :=
  let t := absTimeOperand s
  { storeSlots c t (inputBytes s) s with
    expTime := Vector.ofFn (slotTime t)
    expLen := Vector.ofFn (slotLen t (lenOperand s))
    expValid := validMask t }

/-- EXPAND under a configuration (R174, R8). -/
def execExpandWith (c : Config) (s : State) : Result := executeStep .expand (expandEffect c) s

/-- EXPAND (R174). -/
def execExpand (s : State) : Result := execExpandWith Config.hardware s

end Sys2Proof.Machine
end

