-- ==== Sys2Proof/Machine/Frame.lean ====
section
/-! DEFINITION. The frame family: FRAME (R143). -/

namespace Sys2Proof.Machine

/-- The frame of a payload, with the configured table (R140). -/
def frameOf (c : Config) (p : List Byte) : List Byte := frame c.crcTable p

/-- A frame goes to OUT_BUF[0..], its length to OUT_LEN and its last byte, the CRC, to RESULT (R143). -/
def storeFrame (f : List Byte) (s : State) : State :=
  { storeBytes outBufBase f s with
    outLen := BitVec.ofNat 8 f.length
    result := f.getLastD 0 }

/-- FRAME's effect: the frame of the input (R143). -/
def frameEffect (c : Config) (s : State) : State := storeFrame (frameOf c (inputBytes s)) s

/-- FRAME under a configuration (R143, R8). -/
def execFrameWith (c : Config) (s : State) : Result := executeStep .frame (frameEffect c) s

/-- FRAME (R143). -/
def execFrame (s : State) : Result := execFrameWith Config.hardware s

end Sys2Proof.Machine
end

