-- ==== Sys2Proof/Machine/Pulse.lean ====
section
/-! DEFINITION. The pulse family: ENCODE (R157) and FRAME_ENC (R158). -/

namespace Sys2Proof.Machine

/-- The durations of a byte sequence, with the configured stop setting (R150, R155). -/
def pulsesOf (c : Config) (bs : List Byte) (w : Nat) : List Nat := pulseEncode c.stopEachByte bs w

/-- Durations go to PULSE_BUF[0..] and their number to PULSE_COUNT (R157). -/
def storePulses (d : List Nat) (s : State) : State :=
  { storeBytes pulseBufBase (pulseBytes d) s with pulseCount := BitVec.ofNat 16 d.length }

/-- ENCODE's effect: the pulses of the input (R157). -/
def encodeEffect (c : Config) (s : State) : State :=
  storePulses (pulsesOf c (inputBytes s) (unitWidthOperand s)) s

/-- ENCODE under a configuration (R157, R8). -/
def execEncodeWith (c : Config) (s : State) : Result := executeStep .encode (encodeEffect c) s

/-- ENCODE (R157). -/
def execEncode (s : State) : Result := execEncodeWith Config.hardware s

/-- FRAME_ENC's effect: the frame of the input, and the pulses of that frame (R158). -/
def frameEncEffect (c : Config) (s : State) : State :=
  let f := frameOf c (inputBytes s)
  storePulses (pulsesOf c f (unitWidthOperand s)) (storeFrame f s)

/-- FRAME_ENC under a configuration (R158, R8). -/
def execFrameEncWith (c : Config) (s : State) : Result := executeStep .frameEnc (frameEncEffect c) s

/-- FRAME_ENC (R158). -/
def execFrameEnc (s : State) : Result := execFrameEncWith Config.hardware s

end Sys2Proof.Machine
end

