-- ==== Sys2Proof/Machine/System.lean ====
section
/-! DEFINITION. The system family: NOP (R118). -/

namespace Sys2Proof.Machine

/-- NOP: complete(OK) and nothing else; LEN is not checked (R118). -/
def execNop (s : State) : Result := executeStep .nop id s

end Sys2Proof.Machine
end

