-- ==== Sys2Proof/Machine/Dispatch.lean ====
section
/-! DEFINITION. The execute step of each operation, one arm per constructor. -/

namespace Sys2Proof.Machine

/-- The engine's execute step for a legal command word that decodes to `i` (R113). -/
def exec (i : Instr) (s : State) : Host.Outcome State Fault Refusal :=
  match i with
  | .nop => Sys2Proof.Machine.execNop s
  | .crc => Sys2Proof.Machine.execCrc s
  | .frame => Sys2Proof.Machine.execFrame s
  | .encode => Sys2Proof.Machine.execEncode s
  | .frameEnc => Sys2Proof.Machine.execFrameEnc s
  | .expand => Sys2Proof.Machine.execExpand s

end Sys2Proof.Machine
end

