-- ==== Sys2Proof/WellFormed.lean ====
section
/-! DEFINITION. Which command words are well formed (R92). An `Instr` has no operand, so there is nothing in
one that could be ill formed; what can be ill formed is the 32-bit word the host writes, in two ways: a
reserved bit is set, or the operation code is one of 0x6 to 0xF. Each check has a name. -/

namespace Sys2Proof

/-- The field OP, bits 3:0 of a command word (R90). -/
def commandOp (v : Word) : BitVec 4 := v.extractLsb' 0 4

/-- The field RSVD, bits 31:4 of a command word (R90). -/
def commandRsvd (v : Word) : BitVec 28 := v.extractLsb' 4 28

/-- The first check: RSVD is 0 (R90, R92). -/
def reservedClear (v : Word) : Bool := commandRsvd v == 0

/-- The second check: OP is one of the six codes of R91 (R92). -/
def opDefined (v : Word) : Bool := decide ((commandOp v).toNat ≤ 5)

/-- A command word is legal exactly when both checks pass (R92). -/
def legalWord (v : Word) : Bool := reservedClear v && opDefined v

end Sys2Proof
end

