-- ==== Sys2Proof/Decode.lean ====
section
/-! DEFINITION. The decoder of command words, total on 32-bit words and rejecting by name (R92, R93), and the
encoder written from the same opcode map (R91). -/

namespace Sys2Proof

/-- Why a command word is illegal (R93). -/
inductive DecodeError where
  /-- A bit of 31:4 is set. -/
  | reservedBits (rsvd : BitVec 28)
  /-- Bits 31:4 are clear and OP is one of 0x6 to 0xF. -/
  | reservedOp (op : BitVec 4)
  deriving DecidableEq, Repr

/-- The operation a code selects, where the opcode map defines one (R91). -/
def opcodeInstr (op : BitVec 4) : Option Instr :=
  match op.toNat with
  | 0 => some .nop
  | 1 => some .crc
  | 2 => some .frame
  | 3 => some .encode
  | 4 => some .frameEnc
  | 5 => some .expand
  | _ => none

/-- The decoder of CMD32 words (R90 to R93, R96): every word is one of the six legal words or illegal. -/
def decode (v : Word) : Except DecodeError Instr :=
  if reservedClear v then
    match opcodeInstr (commandOp v) with
    | some i => .ok i
    | none => .error (.reservedOp (commandOp v))
  else .error (.reservedBits (commandRsvd v))

/-- The code of an operation, the OP column of the opcode map (R91). -/
def opcode (i : Instr) : BitVec 4 :=
  match i with
  | .nop => 0x0
  | .crc => 0x1
  | .frame => 0x2
  | .encode => 0x3
  | .frameEnc => 0x4
  | .expand => 0x5

/-- The word of an OP field, reserved ones too: OP in bits 3:0 and zeros above (R90, R91). -/
def opWord (op : BitVec 4) : Word := (0 : BitVec 28) ++ op

/-- The encoder: the word of an operation's code (R91). -/
def encode (i : Instr) : Word := opWord (opcode i)

/-- The decoder on a row of spec/opcode_table.json: `nbits` bits of value `w`, every bit above them 0. A command
is one 32-bit word (R96), so a number of more than 32 bits is no command. -/
def decodeTableWord (nbits w : Nat) : Option Instr :=
  if w % 2 ^ nbits < 2 ^ 32 then
    match decode (BitVec.ofNat 32 (w % 2 ^ nbits)) with
    | .ok i => some i
    | .error _ => none
  else none

end Sys2Proof
end

