-- ==== Sys2Proof/Machine/HostPort.lean ====
section
/-! DEFINITION. The host's side of the register window: MemRead (R77, R78), MemWrite (R79), and one step of
the host instructions of R97, of the bus (R72) and of the reset input (R210). -/

namespace Sys2Proof.Machine

/-- The output locations, whose reads during BUSY are unspecified (R78). -/
def isOutput (l : Loc) : Bool :=
  match l with
  | .result | .outLen | .pulseCount | .expValid | .expTime _ | .expLen _ => true
  | .outBuf _ | .expFrame _ _ | .pulseBuf _ => true
  | .id | .cmd | .status | .irqEn | .len | .unitWidth | .absTime | .inBuf _ | .reserved => false

/-- The value a location holds, reserved bits 0 (R77; 10_state.md §2). -/
def locValue (l : Loc) (s : State) : Word :=
  match l with
  | .id => Config.idWord
  | .cmd => s.cmdLast
  | .status => statusWord s
  | .irqEn => flagBit s.ie 0
  | .len => s.len.setWidth 32
  | .unitWidth => s.unitWidth.setWidth 32
  | .absTime => s.absTime
  | .result => s.result.setWidth 32
  | .outLen => s.outLen.setWidth 32
  | .pulseCount => s.pulseCount.setWidth 32
  | .expValid => s.expValid.setWidth 32
  | .expTime i => s.expTime[i]
  | .expLen i => s.expLen[i].setWidth 32
  | .inBuf m => wordAt s (inBufBase + 4 * m.val)
  | .outBuf m => wordAt s (outBufBase + 4 * m.val)
  | .expFrame i m => wordAt s (expFrameBase i.val + 4 * m.val)
  | .pulseBuf j => pulseAt s j.val
  | .reserved => 0

/-- Whether a read at `off` is one whose value is unspecified (R78). -/
def readUnspecified (off : Offset) (s : State) : Bool := s.busy && isOutput (locate off)

/-- MemRead(off, 4): any word where the read is unspecified, else what the location holds (R77, R78). -/
def memRead (off : Offset) (s : State) : Word :=
  if readUnspecified off s then Config.busyRead s.draws else locValue (locate off) s

/-- A write to an operand register or to CMD: while reset is asserted the register keeps its reset value (R210, log 5),
while BUSY is 1 the write is dropped (R192), else it is performed (R79). -/
def guardedWrite (perform : State → State) (s : State) : State :=
  if s.resetHeld then s else if s.busy then dropWrite s else perform s

/-- The effect of writing `v` at a location, the cases of R79. While reset is asserted no write takes hold (R210): a
STATUS write then finds DONE, ERR and WERR 0 and clears nothing. -/
def writeLoc (l : Loc) (v : Word) (s : State) : State :=
  match l with
  | .cmd => guardedWrite (issue v) s
  | .status => clearFlags v s
  | .irqEn => if s.resetHeld then s else { s with ie := v.getLsbD 0 }
  | .len => guardedWrite (fun s => { s with len := v.extractLsb' 0 8 }) s
  | .unitWidth => guardedWrite (fun s => { s with unitWidth := v.extractLsb' 0 16 }) s
  | .absTime => guardedWrite (fun s => { s with absTime := v }) s
  | .inBuf m =>
    if s.resetHeld then unsettleStorage s
    else guardedWrite (storeBytes (inBufBase + 4 * m.val) (wordBytes v)) s
  | .id | .result | .outLen | .pulseCount | .expValid | .expTime _ | .expLen _ => s
  | .outBuf _ | .expFrame _ _ | .pulseBuf _ | .reserved => s

/-- MemWrite(off, 4, v) (R79). -/
def memWrite (off : Offset) (v : Word) (s : State) : State := writeLoc (locate off) v s

/-- What the outside world keeps of a read: the word it was given, and one unspecified word used up where the
read drew one (log 2, log 3). Nothing of the block changes (R76). -/
def noteRead (off : Offset) (s : State) : State :=
  { s with
    answers := memRead off s :: s.answers
    draws := if readUnspecified off s then s.draws + 1 else s.draws }

/-- Whether a read at `off` meets an ERRCODE this edition never produces (U6, log 8). -/
def meetsReservedErrCode (off : Offset) (s : State) : Bool :=
  decide (locate off = .status) && decide (3 < s.errCode.toNat)

/-- RD off (R97). -/
def hostRead (off : Offset) (s : State) : Result :=
  if meetsReservedErrCode off s then .fault (.reservedErrCode s.errCode) else .next (noteRead off s)

/-- One read of POLL off, mask, val: the loop goes on, as the next thing the host does, until the word read
matches (R97). -/
def hostPoll (off : Offset) (mask val : Word) (s : State) : Result :=
  if meetsReservedErrCode off s then .fault (.reservedErrCode s.errCode)
  else if memRead off s &&& mask = val then .next (noteRead off s)
  else .next { noteRead off s with pending := .poll off mask val :: s.pending }

/-- A bus write: MemWrite inside the window, nothing outside it (R72). -/
def busWrite (a : Nat) (v : Word) (s : State) : State :=
  match windowOffset a with
  | some off => memWrite off v s
  | none => s

/-- A bus read: MemRead inside the window; outside it the block answers nothing (R72). -/
def busRead (a : Nat) (s : State) : Result :=
  match windowOffset a with
  | some off => hostRead off s
  | none => .next s

/-- One thing the outside world does (R7, R80, R210). -/
def applyInput (x : Input) (s : State) : Result :=
  match x with
  | .wr off v => .next (memWrite off v s)
  | .rd off => hostRead off s
  | .poll off mask val => hostPoll off mask val s
  | .busWr a v => .next (busWrite a v s)
  | .busRd a => busRead a s
  | .assertReset => .next (resetBlock true s)
  | .releaseReset => .next (releaseReset s)

end Sys2Proof.Machine
end

