-- ==== Sys2Proof/Machine/Turn.lean ====
section
/-! DEFINITION. Which agent moves next (R7, R80, R115), read from plain data in State (log 4). -/

namespace Sys2Proof.Machine

/-- What the next step is. -/
inductive Move where
  /-- The engine's execute step of the issued word (R113). -/
  | execute (v : Word)
  /-- The first pending thing of the outside world. -/
  | input (x : Input)
  /-- Neither agent has anything to do (R214). -/
  | idle
  deriving DecidableEq, Repr

/-- The agent whose turn it is; the engine where the list of turns has ended, which is how every issued
operation completes (R115). -/
def turnOf (s : State) : Agent :=
  match s.turns with
  | [] => .engine
  | a :: _ => a

/-- The step the agent whose turn it is takes, or the other agent's where the first has none enabled. -/
def nextMove (s : State) : Move :=
  match turnOf s, s.engine, s.pending with
  | .engine, .run v, _ => .execute v
  | .host, .run v, [] => .execute v
  | .host, .run _, x :: _ => .input x
  | _, .idle, x :: _ => .input x
  | _, .idle, [] => .idle

/-- The state once the turn is used up. -/
def passTurn (s : State) : State := { s with turns := s.turns.tail }

/-- The state once the turn is used up and the first pending thing taken. -/
def takeInput (s : State) : State := { s with turns := s.turns.tail, pending := s.pending.tail }

end Sys2Proof.Machine
end

