-- ==== Sys2Proof/Machine/Instance.lean ====
section
/-! DEFINITION. The machine under any configuration (R8): the execute step, one step and the model behind the host's
interface, with CRC_TABLE and STOP_EACH_BYTE as arguments. This hardware's machine is the one that Dispatch.lean,
Step.lean and Core.lean give, under Config.hardware. -/

namespace Sys2Proof.Machine

/-- The execute step of a legal command word that decodes to `i`, under a configuration (R113, R8). -/
def execWith (c : Config) (i : Instr) (s : State) : Result :=
  match i with
  | .nop => execNop s
  | .crc => execCrcWith c s
  | .frame => execFrameWith c s
  | .encode => execEncodeWith c s
  | .frameEnc => execFrameEncWith c s
  | .expand => execExpandWith c s

/-- One step, given the execute step of legal words. The engine executes the issued word, decoded, or reports it
illegal (R111, R113); or the outside world does its next thing (R79, R77, R210); or there is nothing to do (R214). -/
def stepBy (execute : Instr → State → Result) (s : State) : Result :=
  match nextMove s with
  | .execute v =>
    match decode v with
    | .ok i => execute i (passTurn s)
    | .error _ => execIllegal (passTurn s)
  | .input x => applyInput x (takeInput s)
  | .idle => .next (passTurn s)

/-- One step under a configuration (R8). -/
def stepWith (c : Config) (s : State) : Result := stepBy (execWith c) s

/-- The model behind the host's interface under a configuration: the same states and reset state, the configured
step (R8). -/
def coreWith (c : Config) : Host.Core where
  State := State
  Fault := Fault
  Refusal := Refusal
  step := stepWith c
  reset := State.reset

end Sys2Proof.Machine
end

