-- ==== Sys2Proof/Machine/Step.lean ====
section
/-! DEFINITION. One step of the whole machine: one agent moves, and the turn is used up (R7, R80). -/

namespace Sys2Proof.Machine

/-- One step of this hardware (R7, R80, R113). -/
def step (s : State) : Host.Outcome State Fault Refusal := stepBy exec s

/-- The host's CMD write of the word whose bits are `w` has just been accepted (R110), and the next turn is the
engine's: the block fetches no instruction, so this is where the next one comes from (R27, log 10). -/
def State.withFetchWord (s : State) (nbits w : Nat) : State :=
  { issue (BitVec.ofNat 32 (w % 2 ^ nbits)) s with turns := .engine :: s.turns }

end Sys2Proof.Machine
end

