-- ==== Sys2Proof/Machine/HostProgram.lean ====
section
/-! DEFINITION. The pseudo-instructions of the host notation (R98), as the host accesses they expand to
(log 14). -/

namespace Sys2Proof.Machine

/-- The words LOAD writes: four bytes a word, bits 7:0 first, missing bytes 0 (R98, R70). -/
def packWords : List Byte → List Word
  | [] => []
  | [a] => [a.setWidth 32]
  | [a, b] => [(b ++ a).setWidth 32]
  | [a, b, c] => [(c ++ b ++ a).setWidth 32]
  | a :: b :: c :: d :: rest => (d ++ c ++ b ++ a) :: packWords rest

/-- Writes of consecutive words from offset `a` upwards. -/
def writeWords (a : Nat) : List Word → List Input
  | [] => []
  | v :: vs => .wr (BitVec.ofNat 14 a) v :: writeWords (a + 4) vs

/-- LOAD b0 b1 ...: the IN_BUF words, and then LEN (R98). -/
def hostLoad (bs : List Byte) : List Input :=
  writeWords inBufBase (packWords bs) ++ [.wr 0x010 (BitVec.ofNat 32 bs.length)]

/-- ISSUE op, for every op of the opcode map, the reserved 0x6 to 0xF too (R98, R91). -/
def hostIssue (op : BitVec 4) : List Input := [.wr 0x004 (opWord op)]

/-- WAIT: until BUSY = 0 (R98). -/
def hostWait : List Input := [.poll 0x008 0x1 0x0]

/-- RUN op: ISSUE and then WAIT (R98). -/
def hostRun (op : BitVec 4) : List Input := hostIssue op ++ hostWait

/-- CLEAR: DONE, ERR and WERR (R98). -/
def hostClear : List Input := [.wr 0x008 0xE]

end Sys2Proof.Machine
end

