-- ==== Sys2Proof/Safety.lean ====
section
/-! DEFINITION. The terms claims are stated in: the operands and the outputs of an operation, which input writes
which location, what keeps a run within the spec's contract, and the invariant of the machine. -/

namespace Sys2Proof.Safety

open Sys2Proof Sys2Proof.Machine

/-! ### Operands and outputs -/

/-- The two states hold the same operands: LEN, UNIT_WIDTH, ABS_TIME and every byte of IN_BUF (R46, R95). -/
def SameOperands (s t : State) : Prop :=
  t.len = s.len ∧ t.unitWidth = s.unitWidth ∧ t.absTime = s.absTime ∧
    ∀ a, 0x100 ≤ a → a < 0x180 → byteAt t a = byteAt s a

/-- The two states hold the same outputs: the result registers and every byte of OUT_BUF, EXP_FRAME and
PULSE_BUF (R78). -/
def SameOutputs (s t : State) : Prop :=
  t.result = s.result ∧ t.outLen = s.outLen ∧ t.pulseCount = s.pulseCount ∧ t.expValid = s.expValid ∧
    t.expTime = s.expTime ∧ t.expLen = s.expLen ∧ ∀ a, 0x180 ≤ a → byteAt t a = byteAt s a

/-- The two states agree on what is not the block's own: the level of the reset input, what is pending, whose turn it is, what reads have
returned, and the counters behind the free values. -/
def SameWorld (s t : State) : Prop :=
  t.resetHeld = s.resetHeld ∧ t.pending = s.pending ∧ t.turns = s.turns ∧ t.answers = s.answers ∧ t.draws = s.draws ∧ t.epoch = s.epoch

/-- The operand and control registers no operation writes are the same: LEN, UNIT_WIDTH, ABS_TIME, IE and
CMD_LAST (R116). -/
def SameControl (s t : State) : Prop :=
  t.len = s.len ∧ t.unitWidth = s.unitWidth ∧ t.absTime = s.absTime ∧ t.ie = s.ie ∧ t.cmdLast = s.cmdLast

/-- The EXPAND registers are the same (R116). -/
def SameExpRegisters (s t : State) : Prop :=
  t.expValid = s.expValid ∧ t.expTime = s.expTime ∧ t.expLen = s.expLen

/-- The STATUS bits and the engine after a completion with OK: BUSY 0, DONE 1, ERRCODE 0, ERR and WERR as they
were, ENGINE IDLE (R114). -/
def CompletedOk (s t : State) : Prop :=
  t.busy = false ∧ t.done = true ∧ t.errCode = 0 ∧ t.err = s.err ∧ t.werr = s.werr ∧ t.engine = .idle

/-- The state after a completion with a nonzero code: the STATUS bits of R114 and the engine, nothing else
(R112). -/
def rejectedWith (code : BitVec 4) (s : State) : State :=
  { s with errCode := code, err := true, busy := false, done := true, engine := .idle }

/-- The LEN column of R94, as a test on a byte count. -/
def lenInRange (i : Instr) (n : Nat) : Bool :=
  match i with
  | .nop => true
  | .crc => decide (n ≤ 128)
  | .frame => decide (n ≤ 112)
  | .encode => decide (1 ≤ n ∧ n ≤ 128)
  | .frameEnc => decide (n ≤ 112)
  | .expand => decide (n ≤ 111)

/-- The UNIT_WIDTH column of R94: the operations whose UNIT_WIDTH must be 1 to 65535. -/
def needsUnitWidth (i : Instr) : Bool :=
  match i with
  | .encode | .frameEnc => true
  | .nop | .crc | .frame | .expand => false

/-- The code the first failing check of R111 gives a legal word, 0 where every check passes. -/
def codeOf (i : Instr) (s : State) : BitVec 4 :=
  if lenInRange i s.len.toNat = false then 2
  else if needsUnitWidth i = true ∧ s.unitWidth = 0 then 3
  else 0

/-- The input bytes of the next operation: IN_BUF[0] to IN_BUF[n-1] at offsets 0x100 + k (R38, R95). -/
def inBytes (s : State) (n : Nat) : List Byte := (List.range n).map (fun k => byteAt s (0x100 + k))

/-- Whether every IN_BUF byte the next operation reads has been written since the last reset (R215 step 3).
Where it is false the spec calls the result unspecified (R45) and recommends that a proof stop there (U1). -/
def inputWritten (s : State) : Bool :=
  (List.range s.len.toNat).all (fun k => (s.mem.lookup (0x100 + k)).isSome)

/-- A run is within the software contract of R220 as long as no write has been dropped since WERR was last
cleared (U12). -/
def noDroppedWrite (s : State) : Bool := !s.werr

/-! ### What an input writes -/

/-- The window write an input of the outside world makes, if it makes one (R72, R97). -/
def inputWrite (x : Input) : Option (Offset × Word) :=
  match x with
  | .wr off v => some (off, v)
  | .busWr a v => (windowOffset a).map (fun off => (off, v))
  | .rd _ | .poll _ _ _ | .busRd _ | .assertReset | .releaseReset => none

/-- The window offset an input of the outside world reads, if it reads one (R72, R97). -/
def inputRead (x : Input) : Option Offset :=
  match x with
  | .rd off => some off
  | .poll off _ _ => some off
  | .busRd a => windowOffset a
  | .wr _ _ | .busWr _ _ | .assertReset | .releaseReset => none

/-- The step about to be taken reads location `l`. -/
def AboutToRead (s : State) (l : Loc) : Prop :=
  ∃ x off, nextMove s = .input x ∧ inputRead x = some off ∧ locate off = l

/-- The step about to be taken writes word `v` at location `l`. -/
def AboutToWrite (s : State) (l : Loc) (v : Word) : Prop :=
  ∃ x off, nextMove s = .input x ∧ inputWrite x = some (off, v) ∧ locate off = l

/-- The step about to be taken is an operation's execute step. -/
def AboutToExecute (s : State) : Prop := ∃ v, nextMove s = .execute v

/-- Whether an input resets the block: the reset input is asserted, or released after it was asserted (R210). -/
def resetsBlock (x : Input) (s : State) : Bool :=
  match x with
  | .assertReset => true
  | .releaseReset => s.resetHeld
  | .wr _ _ | .rd _ | .poll _ _ _ | .busWr _ _ | .busRd _ => false

/-- The step about to be taken resets the block (R210). -/
def AboutToReset (s : State) : Prop := ∃ x, nextMove s = .input x ∧ resetsBlock x s = true

/-- Every register and the engine are at their reset values and no storage byte has a written value (R210 to R212); the
level of the reset input, and what is not the block's, is left open. -/
def AtReset (s : State) : Prop :=
  s = { State.reset with
        resetHeld := s.resetHeld, pending := s.pending, turns := s.turns, answers := s.answers, draws := s.draws
        epoch := s.epoch }

/-- A running word with this code and a reserved bit set completes with ILLEGAL_CMD and changes nothing else of the
block (R93, R111, R112). The list of turns, which is not the block's, is left open. -/
def ReservedBitsAreIllegal (op : BitVec 4) : Prop :=
  ∀ (s : State) (v : Word), nextMove s = .execute v → v.extractLsb' 0 4 = op → v.extractLsb' 4 28 ≠ 0 →
    ∃ t, step s = .next t ∧ t = { rejectedWith 1 s with turns := t.turns }

/-- The locations a write of which is dropped while BUSY is 1 (R192, R220). -/
def droppedWhileBusy (l : Loc) : Bool :=
  match l with
  | .cmd | .len | .unitWidth | .absTime | .inBuf _ => true
  | .id | .status | .irqEn | .result | .outLen | .pulseCount | .expValid | .expTime _ | .expLen _ => false
  | .outBuf _ | .expFrame _ _ | .pulseBuf _ | .reserved => false

/-! ### Pulses -/

/-- The maximal runs of equal symbols, in order (R156 (a)). -/
def symbolRuns (σ : List Bool) : List (List Bool) := σ.splitBy (· == ·)

/-- How many symbols differ from the one before (R156 (f)). -/
def transitions (σ : List Bool) : Nat := ((σ.zip σ.tail).filter (fun p => p.1 != p.2)).length

/-! ### The invariant -/

/-- ENGINE and STATUS agree (R24, R25, R46): idle exactly when BUSY is 0; running the word CMD reads, with DONE 0,
when BUSY is 1. -/
def EngineAgrees (s : State) : Prop :=
  match s.engine with
  | .idle => s.busy = false
  | .run v => s.busy = true ∧ s.done = false ∧ s.cmdLast = v

/-- OUT_BUF holds a whole frame of OUT_LEN bytes, or OUT_LEN is still 0 (R34, R39, R143). -/
def OutBufHoldsFrame (c : Config) (s : State) : Prop :=
  s.outLen = 0 ∨ ∃ p : List Byte, p.length ≤ 112 ∧ bytesAt s outBufBase s.outLen.toNat = frameOf c p

/-- PULSE_BUF holds a whole pulse list of PULSE_COUNT durations, or PULSE_COUNT is still 0 (R35, R41, R157). -/
def PulseBufHoldsPulses (c : Config) (s : State) : Prop :=
  s.pulseCount = 0 ∨ ∃ (bs : List Byte) (w : Nat), 1 ≤ bs.length ∧ bs.length ≤ 128 ∧ 1 ≤ w ∧ w ≤ 65535 ∧
    (pulsesAt s s.pulseCount.toNat).map BitVec.toNat = pulsesOf c bs w

/-- The EXP registers and slots are those of one absolute time and one raw command (R36, R37, R40, R174). -/
def SlotsHoldExpansion (c : Config) (s : State) : Prop :=
  ∃ (t : Word) (r : List Byte), r.length ≤ 111 ∧ s.expValid = validMask t.toNat ∧
    ∀ i : Fin 16, s.expTime[i] = slotTime t.toNat i ∧ s.expLen[i] = slotLen t.toNat r.length i ∧
      (bucketValid t.toNat i = true →
        bytesAt s (expFrameBase i.val) (r.length + 3) = slotFrame c.crcTable r i)

/-- What every step under a configuration keeps and reset gives. -/
structure InvWith (c : Config) (s : State) : Prop where
  /-- Storage is in its canonical form. -/
  mem : s.mem.wf
  /-- ERRCODE is one of the four codes (R190). -/
  code : s.errCode.toNat ≤ 3
  /-- ENGINE and STATUS agree. -/
  engine : EngineAgrees s
  /-- OUT_BUF. -/
  out : OutBufHoldsFrame c s
  /-- PULSE_BUF. -/
  pulses : PulseBufHoldsPulses c s
  /-- EXP registers and slots. -/
  slots : SlotsHoldExpansion c s
  /-- While reset is asserted every register has its reset value (R210). -/
  held : s.resetHeld = true → AtReset s

/-- The invariant of this hardware. -/
abbrev Inv (s : State) : Prop := InvWith Config.hardware s

end Sys2Proof.Safety
end

