-- ==== Sys2Proof/Certificates/Slice0/Obligations.lean ====
section
/-! DEFINITION. The statements for the provers, each with the rule of spec/ it formalises or rests on. -/

open Sys2Proof Sys2Proof.Machine Sys2Proof.Safety

/-! ### Encoding -/

/-- R91, R92: a word decodes to an operation exactly when it is that operation's word, so no bit of a word is
dropped and no word is missing. -/
def Obligations.DecodeAndEncodeAgree : Prop :=
  ∀ (v : Word) (i : Instr), decode v = .ok i ↔ v = encode i

/-- R92: legal exactly when bits 31:4 are 0 and bits 3:0 are at most 5; the six legal words are 0 to 5; the
operation selected is the one bits 3:0 number; every word is legal or illegal. -/
def Obligations.LegalWordsAreTheSixOfTheTable : Prop :=
  ∀ v : Word,
    ((∃ i, decode v = .ok i) ↔ v.extractLsb' 4 28 = 0 ∧ (v.extractLsb' 0 4).toNat ≤ 5) ∧
    ((∃ i, decode v = .ok i) ↔ v.toNat ≤ 5) ∧
    (∀ i, decode v = .ok i → v.extractLsb' 0 4 = opcode i) ∧
    ((∃ i, decode v = .ok i) ∨ ∃ e, decode v = .error e)

/-- R91: the words of the opcode map, and the first words on either side of it that are illegal (R93). -/
def Obligations.TableWordsDecode : Prop :=
  decodeTableWord 32 0x00000000 = some .nop ∧ decodeTableWord 32 0x00000001 = some .crc ∧
  decodeTableWord 32 0x00000002 = some .frame ∧ decodeTableWord 32 0x00000003 = some .encode ∧
  decodeTableWord 32 0x00000004 = some .frameEnc ∧ decodeTableWord 32 0x00000005 = some .expand ∧
  decodeTableWord 32 0x00000006 = none ∧ decodeTableWord 32 0x0000000F = none ∧
  decodeTableWord 32 0x00000010 = none ∧ decodeTableWord 32 0x80000001 = none

/-- R93: the execute step of an illegal word completes with ILLEGAL_CMD and changes nothing else. The list of turns,
which is not the block's, is left open. -/
def Obligations.IllegalCommandReportsAndChangesNothing : Prop :=
  ∀ (s : State) (v : Word), nextMove s = .execute v →
    (v.extractLsb' 4 28 ≠ 0 ∨ 6 ≤ (v.extractLsb' 0 4).toNat) →
    ∃ t, step s = .next t ∧ t = { rejectedWith 1 s with turns := t.turns }

/-! ### Steps -/

/-- R113: while ENGINE is RUN(v), with the turn the engine's or nothing pending from outside, and v decoding to i,
the step is exec of i on the state whose turn has been used up. Turns are the model's own (log 4). -/
def Obligations.StepRunsDecodedInstruction : Prop :=
  ∀ (s : State) (v : Word) (i : Instr), s.engine = .run v →
    (s.turns.headD .engine = .engine ∨ s.pending = []) → decode v = .ok i →
    step s = exec i { s with turns := s.turns.tail }

/-- R80: a pending access or reset is performed, alone and whole, when the engine is idle or the turn is the
host's. Pending things and turns are the model's own (log 3, log 4). -/
def Obligations.StepPerformsFirstPendingInput : Prop :=
  ∀ (s : State) (x : Input) (rest : List Input), s.pending = x :: rest →
    (s.engine = .idle ∨ s.turns.headD .engine = .host) →
    step s = applyInput x { s with turns := s.turns.tail, pending := rest }

/-- R214: with no operation running and nothing pending the block waits; only the model's own turn passes
(log 4). -/
def Obligations.IdleBlockWaits : Prop :=
  ∀ s : State, s.engine = .idle → s.pending = [] → step s = .next { s with turns := s.turns.tail }

/-- A word that decodes is run by the very next step after the host's accepted write of it (log 10). -/
def Obligations.FetchedCommandRunsNext : Prop :=
  ∀ (s : State) (nbits w : Nat) (i : Instr), decodeTableWord nbits w = some i →
    step (s.withFetchWord nbits w) = exec i (issue (BitVec.ofNat 32 (w % 2 ^ nbits)) s)

/-! ### Issue and STATUS -/

/-- R110, R22: with reset not asserted (R210), an accepted CMD write issues the word and changes nothing else, and CMD
then reads it; a CMD write while BUSY is 1 is not an issue. -/
def Obligations.AcceptedCommandWriteIssues : Prop :=
  ∀ (s : State) (v : Word), s.resetHeld = false →
    (s.busy = false →
      memWrite 0x004 v s = { s with cmdLast := v, busy := true, done := false, engine := .run v } ∧
      memRead 0x004 (memWrite 0x004 v s) = v) ∧
    (s.busy = true → memWrite 0x004 v s = { s with werr := true })

/-- R192: while BUSY is 1 and reset is not asserted (R210), a write to CMD, LEN, UNIT_WIDTH, ABS_TIME or a word of IN_BUF
sets WERR and changes nothing else: no target, no ERRCODE, no ERR, nothing of the running operation. -/
def Obligations.WritesDuringBusyAreDropped : Prop :=
  ∀ (s : State) (off : Offset) (v : Word), s.resetHeld = false → s.busy = true →
    (wordOffset off = 0x004 ∨ wordOffset off = 0x010 ∨ wordOffset off = 0x014 ∨ wordOffset off = 0x018 ∨
      (0x100 ≤ wordOffset off ∧ wordOffset off < 0x180)) →
    memWrite off v s = { s with werr := true }

/-- R23: the fields of STATUS as the host reads them, the W1C effect of a write whatever BUSY is, and the reset
value. -/
def Obligations.StatusRegisterFields : Prop :=
  (∀ s : State,
    (memRead 0x008 s).getLsbD 0 = s.busy ∧ (memRead 0x008 s).getLsbD 1 = s.done ∧
    (memRead 0x008 s).getLsbD 2 = s.err ∧ (memRead 0x008 s).getLsbD 3 = s.werr ∧
    (memRead 0x008 s).extractLsb' 4 4 = s.errCode ∧ (memRead 0x008 s).extractLsb' 8 24 = 0) ∧
  (∀ (s : State) (v : Word), memWrite 0x008 v s =
    { s with
      done := if v.getLsbD 1 then false else s.done
      err := if v.getLsbD 2 then false else s.err
      werr := if v.getLsbD 3 then false else s.werr }) ∧
  memRead 0x008 State.reset = 0

/-- R29: with reset not asserted (R210), IRQ_EN stores bit 0 whatever BUSY is, its other bits read 0, IE enables irq, and
IE is 0 at reset. -/
def Obligations.IrqEnableRegister : Prop :=
  (∀ (s : State) (v : Word), s.resetHeld = false →
    memWrite 0x00C v s = { s with ie := v.getLsbD 0 } ∧
    memRead 0x00C (memWrite 0x00C v s) = v &&& 1 ∧
    irq (memWrite 0x00C v s) = (s.done && v.getLsbD 0)) ∧
  State.reset.ie = false

/-- R30, R31, R32: while BUSY is 0 and reset is not asserted (R210), a write to LEN, UNIT_WIDTH or ABS_TIME stores the
defined bits and changes nothing else, and the register then reads them with zeros above. -/
def Obligations.OperandRegistersStoreDefinedBits : Prop :=
  ∀ (s : State) (v : Word), s.resetHeld = false → s.busy = false →
    (memWrite 0x010 v s = { s with len := v.extractLsb' 0 8 } ∧ memRead 0x010 (memWrite 0x010 v s) = v &&& 0xFF) ∧
    (memWrite 0x014 v s = { s with unitWidth := v.extractLsb' 0 16 } ∧
      memRead 0x014 (memWrite 0x014 v s) = v &&& 0xFFFF) ∧
    (memWrite 0x018 v s = { s with absTime := v } ∧ memRead 0x018 (memWrite 0x018 v s) = v)

/-- R24: BUSY rises only by an accepted CMD write (BUSY 0 and reset not asserted), and falls only by the completion step
or by reset; each of the three does what it says. -/
def Obligations.BusyChangesOnlyByIssueCompletionReset : Prop :=
  ∀ s t : State, step s = .next t →
    (s.busy = false → t.busy = true → s.resetHeld = false ∧ ∃ v, AboutToWrite s .cmd v) ∧
    (s.busy = true → t.busy = false → AboutToExecute s ∨ AboutToReset s) ∧
    (∀ v, AboutToWrite s .cmd v → s.resetHeld = false → t.busy = true) ∧
    (AboutToExecute s ∨ AboutToReset s → t.busy = false)

/-- R25: DONE falls only by an accepted CMD write, a STATUS write with bit 1 set, or reset, and rises only by a
completion; each of the four does what it says. -/
def Obligations.DoneChangesOnlyByTheFourCauses : Prop :=
  ∀ s t : State, step s = .next t →
    (s.done = true → t.done = false →
      (s.busy = false ∧ s.resetHeld = false ∧ ∃ v, AboutToWrite s .cmd v) ∨
        (∃ v, AboutToWrite s .status v ∧ v.getLsbD 1 = true) ∨ AboutToReset s) ∧
    (s.done = false → t.done = true → AboutToExecute s) ∧
    (∀ v, AboutToWrite s .cmd v → s.busy = false → s.resetHeld = false → t.done = false) ∧
    (∀ v, AboutToWrite s .status v → v.getLsbD 1 = true → t.done = false) ∧
    (AboutToReset s → t.done = false) ∧
    (AboutToExecute s → t.done = true)

/-- R26: a completion sets ERR exactly when its code is nonzero or ERR was set; every dropped write sets WERR; each
stays until a STATUS write with a 1 in its bit, or reset, and such a write clears it. -/
def Obligations.ErrorBitsAreSticky : Prop :=
  ∀ s t : State, step s = .next t →
    (AboutToExecute s → (t.err = true ↔ s.err = true ∨ t.errCode ≠ 0)) ∧
    (∀ l v, AboutToWrite s l v → droppedWhileBusy l = true → s.busy = true → s.resetHeld = false →
      t.werr = true) ∧
    (s.err = true → t.err = false → (∃ v, AboutToWrite s .status v ∧ v.getLsbD 2 = true) ∨ AboutToReset s) ∧
    (s.werr = true → t.werr = false → (∃ v, AboutToWrite s .status v ∧ v.getLsbD 3 = true) ∨ AboutToReset s) ∧
    (∀ v, AboutToWrite s .status v →
      (v.getLsbD 2 = true → t.err = false) ∧ (v.getLsbD 3 = true → t.werr = false))

/-- R196: every completion, of every operation and of an illegal word, success or error, leaves irq at IE. -/
def Obligations.CompletionAssertsIrqWhenEnabled : Prop :=
  (∀ (i : Instr) (s t : State), exec i s = .next t → irq t = s.ie) ∧
  (∀ s t : State, execIllegal s = .next t → irq t = s.ie)

/-- R197: irq falls only by a STATUS write with bit 1 set, an IRQ_EN write with bit 0 clear, an accepted issue or
reset; each of the four leaves it low (a write, while reset is not asserted; while it is, irq is low already). -/
def Obligations.IrqFallsOnlyByTheFourCauses : Prop :=
  ∀ s t : State, step s = .next t →
    (irq s = true → irq t = false →
      (∃ v, AboutToWrite s .status v ∧ v.getLsbD 1 = true) ∨ (∃ v, AboutToWrite s .irqEn v ∧ v.getLsbD 0 = false) ∨
        (s.busy = false ∧ s.resetHeld = false ∧ ∃ v, AboutToWrite s .cmd v) ∨ AboutToReset s) ∧
    (∀ v, AboutToWrite s .status v → v.getLsbD 1 = true → irq t = false) ∧
    (∀ v, AboutToWrite s .irqEn v → v.getLsbD 0 = false → s.resetHeld = false → irq t = false) ∧
    (∀ v, AboutToWrite s .cmd v → s.busy = false → s.resetHeld = false → irq t = false) ∧
    (AboutToReset s → irq t = false)

/-! ### The register window -/

/-- R73: a reserved offset reads 0 and ignores writes, whatever BUSY is; the read is answered, no error is raised
and WERR is not set. -/
def Obligations.ReservedOffsetsReadZeroIgnoreWrites : Prop :=
  ∀ (s : State) (off : Offset) (v : Word),
    ((0x02C ≤ wordOffset off ∧ wordOffset off ≤ 0x03C) ∨ (0x0C0 ≤ wordOffset off ∧ wordOffset off ≤ 0x0FC) ∨
      (0x200 ≤ wordOffset off ∧ wordOffset off ≤ 0x7FF) ∨ (0x1000 ≤ wordOffset off ∧ wordOffset off ≤ 0x1FFF) ∨
      (0x3400 ≤ wordOffset off ∧ wordOffset off ≤ 0x3FFF)) →
    memRead off s = 0 ∧ memWrite off v s = s ∧ hostRead off s = .next { s with answers := 0 :: s.answers }

/-- R75: an access at `off` behaves as one at `off AND 0x3FFC`. -/
def Obligations.OffsetLowBitsAreIgnored : Prop :=
  ∀ (s : State) (off : Offset) (v : Word),
    memRead off s = memRead (off &&& 0x3FFC) s ∧ memWrite off v s = memWrite (off &&& 0x3FFC) v s ∧
    hostRead off s = hostRead (off &&& 0x3FFC) s

/-- R79, R21, R33 to R37, R39 to R41: writes to ID, the result registers, OUT_BUF, EXP_FRAME and PULSE_BUF have no
effect, whatever BUSY is. -/
def Obligations.ReadOnlyLocationsIgnoreWrites : Prop :=
  ∀ (s : State) (off : Offset) (v : Word),
    (wordOffset off = 0x000 ∨ (0x01C ≤ wordOffset off ∧ wordOffset off ≤ 0x028) ∨
      (0x040 ≤ wordOffset off ∧ wordOffset off ≤ 0x0BC) ∨ (0x180 ≤ wordOffset off ∧ wordOffset off ≤ 0x1FC) ∨
      (0x800 ≤ wordOffset off ∧ wordOffset off ≤ 0xFFC) ∨ (0x2000 ≤ wordOffset off ∧ wordOffset off ≤ 0x33FC)) →
    memWrite off v s = s

/-- R70, R38, R226: while BUSY is 0 and reset is not asserted (R210), a word written to IN_BUF stores its bits 7:0 at the
lowest byte and so on upwards, the word then reads back, and no other byte and no register changes. -/
def Obligations.InBufWordWriteStoresLittleEndian : Prop :=
  ∀ (s : State) (v : Word) (m : Nat), m < 32 → s.resetHeld = false → s.busy = false →
    ∃ t, memWrite (BitVec.ofNat 14 (0x100 + 4 * m)) v s = t ∧ t = { s with mem := t.mem } ∧
      (∀ k, k < 4 → byteAt t (0x100 + 4 * m + k) = v.extractLsb' (8 * k) 8) ∧
      (∀ a, a < 0x100 + 4 * m ∨ 0x100 + 4 * m + 4 ≤ a → byteAt t a = byteAt s a) ∧
      memRead (BitVec.ofNat 14 (0x100 + 4 * m)) t = v

/-- R76: a read changes no state of the block: what changes is only the model's record of the word returned and of
the draws used (log 2, log 3). A read outside R78's cases gives the same word again; that this holds of storage nothing
has written is the model's deduction (log 1). -/
def Obligations.ReadsChangeNoBlockState : Prop :=
  ∀ (s t : State) (off : Offset), hostRead off s = .next t →
    t = { s with answers := memRead off s :: s.answers, draws := t.draws } ∧
    (readUnspecified off s = false → t.draws = s.draws ∧ memRead off t = memRead off s)

/-- R78: during BUSY, ID, CMD, STATUS, IRQ_EN, LEN, UNIT_WIDTH, ABS_TIME and IN_BUF read their current values, and a
read of an output location is a fresh unspecified word, whatever the free value is. -/
def Obligations.ReadsDuringBusy : Prop :=
  ∀ s : State, s.busy = true →
    memRead 0x000 s = 0x39580001 ∧ memRead 0x004 s = s.cmdLast ∧ memRead 0x008 s = statusWord s ∧
    memRead 0x00C s = (if s.ie then 1 else 0) ∧ memRead 0x010 s = s.len.setWidth 32 ∧
    memRead 0x014 s = s.unitWidth.setWidth 32 ∧ memRead 0x018 s = s.absTime ∧
    (∀ m, m < 32 → memRead (BitVec.ofNat 14 (0x100 + 4 * m)) s = wordAt s (0x100 + 4 * m)) ∧
    (∀ off : Offset,
      ((0x01C ≤ wordOffset off ∧ wordOffset off ≤ 0x028) ∨ (0x040 ≤ wordOffset off ∧ wordOffset off ≤ 0x0BC) ∨
        (0x180 ≤ wordOffset off ∧ wordOffset off ≤ 0x1FC) ∨ (0x800 ≤ wordOffset off ∧ wordOffset off ≤ 0xFFC) ∨
        (0x2000 ≤ wordOffset off ∧ wordOffset off ≤ 0x33FC)) →
      hostRead off s =
        .next { s with answers := Config.busyRead s.draws :: s.answers, draws := s.draws + 1 })

/-- R77, R22: with BUSY 0 every location of the window that is not reserved reads what it holds: ID its constant, CMD
CMD_LAST, each register its field with zeros above, each buffer word its bytes with the lowest in bits 7:0, each
duration whole. -/
def Obligations.OutputsReadWhatTheyHold : Prop :=
  ∀ s : State, s.busy = false →
    memRead 0x000 s = 0x39580001 ∧ memRead 0x004 s = s.cmdLast ∧ memRead 0x008 s = statusWord s ∧
    memRead 0x00C s = (if s.ie then 1 else 0) ∧ memRead 0x010 s = s.len.setWidth 32 ∧
    memRead 0x014 s = s.unitWidth.setWidth 32 ∧ memRead 0x018 s = s.absTime ∧
    (∀ m k, m < 32 → k < 4 →
      (memRead (BitVec.ofNat 14 (0x100 + 4 * m)) s).extractLsb' (8 * k) 8 = byteAt s (0x100 + 4 * m + k)) ∧
    memRead 0x01C s = s.result.setWidth 32 ∧ memRead 0x020 s = s.outLen.setWidth 32 ∧
    memRead 0x024 s = s.pulseCount.setWidth 32 ∧ memRead 0x028 s = s.expValid.setWidth 32 ∧
    (∀ i : Fin 16, memRead (BitVec.ofNat 14 (0x040 + 4 * i.val)) s = s.expTime[i] ∧
      memRead (BitVec.ofNat 14 (0x080 + 4 * i.val)) s = s.expLen[i].setWidth 32) ∧
    (∀ m k, m < 32 → k < 4 →
      (memRead (BitVec.ofNat 14 (0x180 + 4 * m)) s).extractLsb' (8 * k) 8 = byteAt s (0x180 + 4 * m + k)) ∧
    (∀ (i : Fin 16) (m k : Nat), m < 32 → k < 4 →
      (memRead (BitVec.ofNat 14 (0x800 + 0x80 * i.val + 4 * m)) s).extractLsb' (8 * k) 8 =
        byteAt s (0x800 + 0x80 * i.val + 4 * m + k)) ∧
    (∀ j, j < 1280 → memRead (BitVec.ofNat 14 (0x2000 + 4 * j)) s = pulseAt s j)

/-- R72: a bus access reaches the block exactly when its address is in the 16 KiB from BASE, and then at the offset
from BASE; another address does nothing. -/
def Obligations.BusAddressesReachOnlyTheWindow : Prop :=
  ∀ (s : State) (a : Nat) (v : Word),
    (∀ off : Offset, a = Config.base + off.toNat →
      busWrite a v s = memWrite off v s ∧ busRead a s = hostRead off s) ∧
    ((a < Config.base ∨ Config.base + 0x4000 ≤ a) → busWrite a v s = s ∧ busRead a s = .next s)

/-- R97: a POLL whose word matches is done; one whose word does not match is the next thing the host does again. A
POLL never meets the fault while ERRCODE is one of the four codes (U6, log 8). -/
def Obligations.PollRepeatsUntilItMatches : Prop :=
  ∀ (s : State) (off : Offset) (mask val : Word), s.errCode.toNat ≤ 3 →
    ∃ t, hostPoll off mask val s = .next t ∧ t.answers = memRead off s :: s.answers ∧
      t = { s with pending := t.pending, answers := t.answers, draws := t.draws } ∧
      (memRead off s &&& mask = val → t.pending = s.pending) ∧
      (memRead off s &&& mask ≠ val → t.pending = .poll off mask val :: s.pending)

/-! ### Reset -/

/-- R212: the reset values, as the host reads them and as the machine holds them; storage has no written value
(R211), the ROMs hold their tables. -/
def Obligations.ResetLeavesTheStatedValues : Prop :=
  memRead 0x000 State.reset = 0x39580001 ∧ memRead 0x004 State.reset = 0 ∧ memRead 0x008 State.reset = 0 ∧
  State.reset.busy = false ∧ State.reset.done = false ∧ State.reset.err = false ∧ State.reset.werr = false ∧
  State.reset.errCode = 0 ∧ memRead 0x00C State.reset = 0 ∧ memRead 0x010 State.reset = 0 ∧
  memRead 0x014 State.reset = 0x01A1 ∧ memRead 0x018 State.reset = 0 ∧ memRead 0x01C State.reset = 0 ∧
  memRead 0x020 State.reset = 0 ∧ memRead 0x024 State.reset = 0 ∧ memRead 0x028 State.reset = 0 ∧
  (∀ i : Fin 16, State.reset.expTime[i] = 0 ∧ State.reset.expLen[i] = 0) ∧
  (∀ a, State.reset.mem.lookup a = none) ∧ State.reset.engine = .idle ∧ irq State.reset = false ∧
  (∀ i : Byte, tableAt Config.hardware.crcTable i = crcTableEntry i) ∧
  Config.delayTable.toList = [0xFF, 0xFE, 0xFD, 0xFC, 0xFB, 0xFA, 0xF9, 0xF8, 0xF7, 0xF6, 0xF5, 0xF4, 0xF3, 0xF2,
    0xF1, 0x20]

/-- R210, R211: from every state asserting the reset input is answered, and so is releasing it where it is asserted: each
gives every register and the engine their reset values, forgets all storage, lowers irq and abandons a running
operation. Releasing it where it is not asserted does nothing. That what is pending from outside stays is the model's
choice (log 5); that its own count, behind which the free bytes of storage are others, is a new one is the model's form
of R211 (log 1). -/
def Obligations.ResetInputAbandonsEverything : Prop :=
  ∀ s : State,
    (∃ t, applyInput .assertReset s = .next t ∧
      t = { State.reset with
            resetHeld := true, pending := s.pending, turns := s.turns, answers := s.answers, draws := s.draws
            epoch := t.epoch } ∧
      t.epoch ≠ s.epoch ∧ irq t = false ∧ (∀ v, t.engine ≠ .run v) ∧ (∀ a, t.mem.lookup a = none)) ∧
    (s.resetHeld = true → ∃ t, applyInput .releaseReset s = .next t ∧
      t = { State.reset with
            resetHeld := false, pending := s.pending, turns := s.turns, answers := s.answers, draws := s.draws
            epoch := t.epoch } ∧
      t.epoch ≠ s.epoch ∧ irq t = false ∧ (∀ v, t.engine ≠ .run v) ∧ (∀ a, t.mem.lookup a = none)) ∧
    (s.resetHeld = false → applyInput .releaseReset s = .next s)

/-! ### The operations -/

/-- R118: NOP completes with OK from every state, whatever LEN is, and changes nothing else; its word is 0; a word
with OP 0 and a reserved bit raises ILLEGAL_CMD; the example's STATUS. -/
def Obligations.NopCompletesWithoutEffect : Prop :=
  (∀ s : State, exec .nop s =
    .next { s with errCode := 0, busy := false, done := true, engine := .idle }) ∧
  decode 0x00000000 = .ok .nop ∧
  ReservedBitsAreIllegal 0 ∧
  (∀ s t : State, memRead 0x008 s = 0x00000004 → exec .nop s = .next t → memRead 0x008 t = 0x00000006)

/-- R131: CRC. For LEN at most 128 RESULT takes the CRC of the input and nothing else but the completion happens;
above, LEN_RANGE and RESULT unchanged; its word, its corner cases and its example. -/
def Obligations.CrcWritesResult : Prop :=
  (∀ s : State, s.len.toNat ≤ 128 → exec .crc s =
    .next { s with
      result := crc Config.hardware.crcTable (inBytes s s.len.toNat)
      errCode := 0, busy := false, done := true, engine := .idle }) ∧
  (∀ s : State, 128 < s.len.toNat → exec .crc s = .next (rejectedWith 2 s)) ∧
  decode 0x00000001 = .ok .crc ∧
  ReservedBitsAreIllegal 1 ∧
  (∀ s t : State, s.len = 0 → exec .crc s = .next t → t.result = 0x00) ∧
  (∀ s t : State, s.len = 5 → inBytes s 5 = [0x93, 0xFF, 0x24, 0x62, 0x6A] → exec .crc s = .next t →
    t.result = 0xC8)

/-- R143: FRAME. For LEN at most 112 the frame of the payload goes to OUT_BUF[0..n+1], its length to OUT_LEN and its
CRC byte to RESULT; no other byte and no other register changes but by the completion. Above, LEN_RANGE and nothing
written. Its word and its example. -/
def Obligations.FrameWritesOutBuf : Prop :=
  (∀ s : State, s.len.toNat ≤ 112 → ∃ t, exec .frame s = .next t ∧
    bytesAt t 0x180 (s.len.toNat + 2) = frame Config.hardware.crcTable (inBytes s s.len.toNat) ∧
    t.outLen.toNat = s.len.toNat + 2 ∧ t.result = byteAt t (0x180 + s.len.toNat + 1) ∧
    (∀ a, a < 0x180 ∨ 0x180 + (s.len.toNat + 2) ≤ a → byteAt t a = byteAt s a) ∧
    t = { s with mem := t.mem, outLen := t.outLen, result := t.result, errCode := 0, busy := false, done := true,
                 engine := .idle }) ∧
  (∀ s : State, 112 < s.len.toNat → exec .frame s = .next (rejectedWith 2 s)) ∧
  decode 0x00000002 = .ok .frame ∧
  ReservedBitsAreIllegal 2 ∧
  frame Config.hardware.crcTable [] = [0x8F, 0xCD] ∧
  (∀ p : List Byte, p.length = 112 → (frame Config.hardware.crcTable p).headD 0 = 0xFF) ∧
  frame Config.hardware.crcTable [0x24, 0x62, 0x6A] = [0x92, 0x24, 0x62, 0x6A, 0x3C]

/-- R144: the empty payload's frame is 8F CD, and FRAME with LEN 0 succeeds with it. -/
def Obligations.EmptyPayloadIsFramed : Prop :=
  frame Config.hardware.crcTable [] = [0x8F, crc Config.hardware.crcTable [0x8F]] ∧
  frame Config.hardware.crcTable [] = [0x8F, 0xCD] ∧
  ∀ s : State, s.len = 0 → ∃ t, exec .frame s = .next t ∧ t.errCode = 0 ∧ t.outLen = 2 ∧ t.result = 0xCD ∧
    bytesAt t 0x180 2 = [0x8F, 0xCD]

/-- R157: ENCODE. For LEN 1 to 128 and a positive UNIT_WIDTH the durations of the input go to PULSE_BUF, each whole,
and their number to PULSE_COUNT; no other byte and no other register changes but by the completion. A LEN of 0 or
above 128 is LEN_RANGE, else a UNIT_WIDTH of 0 is PARAM, and then nothing is written. Its word, the
pulses the pure function gives an empty input, and its example. -/
def Obligations.EncodeWritesPulseBuf : Prop :=
  (∀ s : State, 1 ≤ s.len.toNat → s.len.toNat ≤ 128 → s.unitWidth ≠ 0 → ∃ t d, exec .encode s = .next t ∧
    d = pulseEncode false (inBytes s s.len.toNat) s.unitWidth.toNat ∧
    t.pulseCount.toNat = d.length ∧ (pulsesAt t d.length).map BitVec.toNat = d ∧
    (∀ a, a < 0x2000 ∨ 0x2000 + 4 * d.length ≤ a → byteAt t a = byteAt s a) ∧
    t = { s with mem := t.mem, pulseCount := t.pulseCount, errCode := 0, busy := false, done := true,
                 engine := .idle }) ∧
  (∀ s : State, s.len.toNat = 0 ∨ 128 < s.len.toNat → exec .encode s = .next (rejectedWith 2 s)) ∧
  (∀ s : State, 1 ≤ s.len.toNat → s.len.toNat ≤ 128 → s.unitWidth = 0 →
    exec .encode s = .next (rejectedWith 3 s)) ∧
  decode 0x00000003 = .ok .encode ∧
  ReservedBitsAreIllegal 3 ∧
  (∀ w : Nat, pulseEncode false [] w = [w]) ∧
  pulseEncode false [0x00] 417 = [3753, 417]

/-- R158: FRAME_ENC. For LEN at most 112 and a positive UNIT_WIDTH it writes FRAME's outputs and the durations of
that frame; no other byte and no other register changes but by the completion. LEN above 112 is LEN_RANGE, else a
UNIT_WIDTH of 0 is PARAM, and then neither frame nor pulses are written. Its word and its example. -/
def Obligations.FrameEncWritesFrameAndPulses : Prop :=
  (∀ s : State, s.len.toNat ≤ 112 → s.unitWidth ≠ 0 → ∃ t f d, exec .frameEnc s = .next t ∧
    f = frame Config.hardware.crcTable (inBytes s s.len.toNat) ∧ d = pulseEncode false f s.unitWidth.toNat ∧
    bytesAt t 0x180 (s.len.toNat + 2) = f ∧ t.outLen.toNat = s.len.toNat + 2 ∧
    t.result = byteAt t (0x180 + s.len.toNat + 1) ∧
    t.pulseCount.toNat = d.length ∧ (pulsesAt t d.length).map BitVec.toNat = d ∧
    (∀ a, (a < 0x180 ∨ 0x180 + (s.len.toNat + 2) ≤ a) → (a < 0x2000 ∨ 0x2000 + 4 * d.length ≤ a) →
      byteAt t a = byteAt s a) ∧
    t = { s with mem := t.mem, outLen := t.outLen, result := t.result, pulseCount := t.pulseCount, errCode := 0,
                 busy := false, done := true, engine := .idle }) ∧
  (∀ s : State, 112 < s.len.toNat → exec .frameEnc s = .next (rejectedWith 2 s)) ∧
  (∀ s : State, s.len.toNat ≤ 112 → s.unitWidth = 0 → exec .frameEnc s = .next (rejectedWith 3 s)) ∧
  decode 0x00000004 = .ok .frameEnc ∧
  ReservedBitsAreIllegal 4 ∧
  frame Config.hardware.crcTable [0x24, 0x62, 0x6A] = [0x92, 0x24, 0x62, 0x6A, 0x3C] ∧
  (pulseEncode false [0x92, 0x24, 0x62, 0x6A, 0x3C] 417).take 3 = [834, 417, 834] ∧
  (pulseEncode false [0x92, 0x24, 0x62, 0x6A, 0x3C] 417).length = 24

/-- R158's corner case: FRAME_ENC gives what FRAME and then ENCODE give, the latter with LEN = n + 2 and IN_BUF
holding the bytes of OUT_BUF, except that FRAME_ENC leaves IN_BUF and LEN as they were. -/
def Obligations.FrameEncIsFrameThenEncode : Prop :=
  ∀ s : State, s.len.toNat ≤ 112 → s.unitWidth ≠ 0 →
    ∃ t t1 t2 t3, exec .frameEnc s = .next t ∧ exec .frame s = .next t1 ∧
      t2 = { storeBytes 0x100 (bytesAt t1 0x180 (s.len.toNat + 2)) t1 with
             len := BitVec.ofNat 8 (s.len.toNat + 2) } ∧
      exec .encode t2 = .next t3 ∧ SameOutputs t3 t ∧ t.errCode = t3.errCode ∧ t.err = t3.err ∧
      t.len = s.len ∧ (∀ a, a < 0x180 → byteAt t a = byteAt s a)

/-- R174, R175, R181: EXPAND. For LEN at most 111 each of the sixteen buckets is written as R174 says: a valid one
gets its time, its length, its mask bit and its frame, a skipped one gets zeros and keeps its bytes; bytes past the
frame, bytes outside the slots and every other register stay. Above 111, LEN_RANGE and nothing written. Its word and
its example. -/
def Obligations.ExpandWritesSlots : Prop :=
  (∀ s : State, s.len.toNat ≤ 111 → ∃ t, exec .expand s = .next t ∧
    (∀ i : Fin 16,
      if (16 - i.val) * 100 ≤ s.absTime.toNat then
        t.expTime[i].toNat = s.absTime.toNat - (16 - i.val) * 100 ∧ t.expLen[i].toNat = s.len.toNat + 3 ∧
        t.expValid.getLsbD i.val = true ∧
        bytesAt t (0x800 + 0x80 * i.val) (s.len.toNat + 3) =
          frame Config.hardware.crcTable (Config.delayTable[i] :: inBytes s s.len.toNat) ∧
        (∀ k, s.len.toNat + 3 ≤ k → k < 0x80 →
          byteAt t (0x800 + 0x80 * i.val + k) = byteAt s (0x800 + 0x80 * i.val + k))
      else
        t.expTime[i] = 0 ∧ t.expLen[i] = 0 ∧ t.expValid.getLsbD i.val = false ∧
        (∀ k, k < 0x80 → byteAt t (0x800 + 0x80 * i.val + k) = byteAt s (0x800 + 0x80 * i.val + k))) ∧
    (∀ a, a < 0x800 ∨ 0x1000 ≤ a → byteAt t a = byteAt s a) ∧
    t = { s with mem := t.mem, expTime := t.expTime, expLen := t.expLen, expValid := t.expValid, errCode := 0,
                 busy := false, done := true, engine := .idle }) ∧
  (∀ s : State, 111 < s.len.toNat → exec .expand s = .next (rejectedWith 2 s)) ∧
  decode 0x00000005 = .ok .expand ∧
  ReservedBitsAreIllegal 5 ∧
  (∀ s t : State, s.absTime = 12300 → s.len = 3 → inBytes s 3 = [0x24, 0x62, 0x6A] → exec .expand s = .next t →
    t.expTime[0] = 0x000029CC ∧ bytesAt t 0x800 6 = [0x93, 0xFF, 0x24, 0x62, 0x6A, 0xC8])

/-- R111, R112, R190, R194: every operation completes from every state, with the code of the first failing check in
the order LEN_RANGE, PARAM, and 0 where none fails; with a nonzero code nothing happens but complete(code), and so
for an illegal word. -/
def Obligations.FirstFailingCheckIsReportedAlone : Prop :=
  (∀ (i : Instr) (s : State), ∃ t, exec i s = .next t ∧ t.errCode = codeOf i s ∧
    (codeOf i s ≠ 0 → t = rejectedWith (codeOf i s) s)) ∧
  (∀ s : State, execIllegal s = .next (rejectedWith 1 s))

/-- R116: no operation, successful or not, changes LEN, UNIT_WIDTH, ABS_TIME, IRQ_EN, CMD_LAST or a byte of IN_BUF,
nor WERR, nor anything of the outside world. -/
def Obligations.OperationsKeepOperandsAndControl : Prop :=
  ∀ (i : Instr) (s t : State), exec i s = .next t →
    SameOperands s t ∧ SameControl s t ∧ SameWorld s t ∧ t.werr = s.werr

/-! ### The pure functions -/

/-- R133, which the spec marks derived: for a table with T[0] = 0, the CRC of a message with its CRC appended is 0;
this hardware's table is such a table. -/
def Obligations.CrcResidueIsZero : Prop :=
  (∀ (T : Vector Byte 256) (m : List Byte), tableAt T 0 = 0 → crc T (m ++ [crc T m]) = 0) ∧
  tableAt Config.hardware.crcTable 0 = 0

/-- R146, which the spec marks derived: the invariants of every frame of a payload of at most 112 bytes. -/
def Obligations.FrameInvariants : Prop :=
  ∀ p : List Byte, p.length ≤ 112 →
    (frameOf Config.hardware p).length = p.length + 2 ∧
    ((frameOf Config.hardware p).headD 0).toNat = p.length + 143 ∧
    ((frameOf Config.hardware p).drop 1).take p.length = p ∧
    (frameOf Config.hardware p).getLastD 0 =
      crc Config.hardware.crcTable ((frameOf Config.hardware p).take (p.length + 1)) ∧
    crc Config.hardware.crcTable (frameOf Config.hardware p) = 0

/-- R134, R9: the worked CRC examples under the decided table; 0x4B, the losing value of C2, is not one, and the
alternative table of D1 gives it. -/
def Obligations.CrcWorkedExamples : Prop :=
  crc Config.hardware.crcTable [0x92, 0x24, 0x62, 0x6A] = 0x3C ∧
  crc Config.hardware.crcTable [0x93, 0xFF, 0x24, 0x62, 0x6A] = 0xC8 ∧
  (∀ T : Vector Byte 256,
    (∀ i : Byte, tableAt T i =
      Nat.repeat (fun c : Byte => if c.getLsbD 7 then (c <<< 1) ^^^ 0xE7 else c <<< 1) 8 i) →
    crc T [0x92, 0x24, 0x62, 0x6A] = 0x4B)

/-- R156 (a) and (b), which the spec marks derived: for every byte sequence that is not empty, every width and
either stop setting, the durations are the widths of the maximal runs of the symbol stream, and the runs alternate
on, off, on, off from the first. -/
def Obligations.PulsesAreRunLengthsOfSymbols : Prop :=
  ∀ (stopEach : Bool) (bs : List Byte) (w : Nat), bs ≠ [] → 1 ≤ w →
    pulseEncode stopEach bs w = (symbolRuns (symbols stopEach bs)).map (fun run => w * run.length) ∧
    (symbolRuns (symbols stopEach bs)).flatten = symbols stopEach bs ∧
    ∀ (r : Nat) (h : r < (symbolRuns (symbols stopEach bs)).length),
      (symbolRuns (symbols stopEach bs))[r] ≠ [] ∧
      ∀ b ∈ (symbolRuns (symbols stopEach bs))[r], b = decide (r % 2 = 1)

/-- R156 (c) to (f), which the spec marks derived: this hardware's pulse list has even length, at least 2, every
entry a positive multiple of the width, sum w × (9n + 1), and one entry more than the stream has transitions. -/
def Obligations.PulseListTotals : Prop :=
  ∀ (bs : List Byte) (w : Nat), bs ≠ [] → 1 ≤ w →
    (pulsesOf Config.hardware bs w).length % 2 = 0 ∧ 2 ≤ (pulsesOf Config.hardware bs w).length ∧
    (∀ d ∈ pulsesOf Config.hardware bs w, ∃ k, 1 ≤ k ∧ d = w * k) ∧
    (pulsesOf Config.hardware bs w).sum = w * (9 * bs.length + 1) ∧
    (pulsesOf Config.hardware bs w).length = 1 + transitions (symbols false bs)

/-- R159, which the spec marks derived: for at most 128 bytes and a width of at most 65535, the pulse list fits
PULSE_BUF and every duration fits its entry, for either stop setting. -/
def Obligations.PulsesFitTheBuffer : Prop :=
  ∀ (bs : List Byte) (w : Nat), bs.length ≤ 128 → w ≤ 65535 →
    (pulseEncode false bs w).length ≤ 1153 ∧ (∀ d ∈ pulseEncode false bs w, d ≤ 75561855) ∧
    (pulseEncode true bs w).length ≤ 1280 ∧ (∀ d ∈ pulseEncode true bs w, d ≤ 83884800) ∧ 83884800 < 2 ^ 32

/-- R171: the delay codes. -/
def Obligations.DelayCodeOfEachBucket : Prop :=
  ∀ i : Fin 16, delayCode i = Config.delayTable[i] ∧
    delayCode i = if i.val ≤ 14 then BitVec.ofNat 8 (0xFF - i.val) else 0x20

/-- R176, which the spec marks derived: the valid buckets are the last min(16, t / 100), and EXP_VALID is the mask
the rule prints. -/
def Obligations.ValidBucketsAreASuffix : Prop :=
  ∀ t : Nat,
    (∀ i : Fin 16, bucketValid t i.val = true ↔ 16 - min 16 (t / 100) ≤ i.val) ∧
    ((List.finRange 16).filter (fun i => bucketValid t i.val)).length = min 16 (t / 100) ∧
    validMask t = (0xFFFF : BitVec 16) <<< (16 - min 16 (t / 100))

/-- R177, which the spec marks derived: output times rise by 100 from bucket to bucket, and a valid one is at most
t - 100 and fits 32 bits. -/
def Obligations.OutputTimesRiseByOneHundred : Prop :=
  ∀ t : Word,
    (∀ i : Nat, i < 15 → bucket t.toNat (i + 1) - bucket t.toNat i = 100) ∧
    (∀ i : Fin 16, bucketValid t.toNat i = true →
      ((slotTime t.toNat i).toNat : Int) = bucket t.toNat i.val ∧ (slotTime t.toNat i).toNat + 100 ≤ t.toNat) ∧
    (∀ i j : Fin 16, i < j → bucketValid t.toNat i = true →
      bucketValid t.toNat j = true ∧ (slotTime t.toNat i).toNat < (slotTime t.toNat j).toNat)

/-- R173 and R178, which the spec marks derived: every slot's frame has length n + 3, length byte n + 144, its delay
code at 1, the raw command at 2 to n + 1 and a CRC byte at n + 2; so two slots differ only at 1 and n + 2. -/
def Obligations.SlotFramesDifferOnlyInCodeAndCrc : Prop :=
  ∀ (r : List Byte) (i j : Fin 16), r.length ≤ 111 →
    (slotFrame Config.hardware.crcTable r i).length = r.length + 3 ∧
    ((slotFrame Config.hardware.crcTable r i).headD 0).toNat = r.length + 144 ∧
    (slotFrame Config.hardware.crcTable r i)[1]? = some (delayCode i) ∧
    ((slotFrame Config.hardware.crcTable r i).drop 2).take r.length = r ∧
    ∀ k, k ≠ 1 → k ≠ r.length + 2 →
      (slotFrame Config.hardware.crcTable r i)[k]? = (slotFrame Config.hardware.crcTable r j)[k]?

/-! ### The whole machine -/

/-- The invariant holds at reset. -/
def Obligations.InvariantAtReset : Prop := Inv State.reset

/-- Every step keeps the invariant: storage stays canonical, ERRCODE stays one of the four codes, ENGINE agrees with
STATUS and CMD, OUT_BUF, PULSE_BUF and the slots always hold whole results, and while reset is asserted every register
has its reset value (R210). -/
def Obligations.EveryStepKeepsTheInvariant : Prop :=
  ∀ s t : State, Inv s → step s = .next t → Inv t

/-- R195, U6: a step is never refused, and it faults only on a host read of STATUS (an RD, a POLL or a bus read) that
meets an ERRCODE above 3, which the invariant rules out. The fault is the model's way to follow U6 (log 8). -/
def Obligations.OnlyAReservedErrCodeStopsAStep : Prop :=
  (∀ (s : State) (r : Refusal), step s ≠ .refused r) ∧
  (∀ (s : State) (f : Fault), step s = .fault f →
    f = .reservedErrCode s.errCode ∧ 3 < s.errCode.toNat ∧ AboutToRead s .status) ∧
  (∀ s : State, Inv s → ∃ t, step s = .next t)

/-- R115, in the model's terms: a running operation is over (completed or abandoned by reset) after at most one step
more than there are turns listed, whatever is pending and whoever's turns they are. The finite turn list is the
model's form of weak fairness (log 4). -/
def Obligations.EveryIssuedOperationEnds : Prop :=
  ∀ (s : State) (v : Word), Inv s → s.engine = .run v →
    ∃ (k : Nat) (t : State), 1 ≤ k ∧ k ≤ s.turns.length + 1 ∧ Host.Core.run core k s = .next t ∧ t.engine = .idle

/-- R46, R84, R192: while BUSY is 1, nothing the outside world does but asserting reset changes an operand, CMD_LAST,
ENGINE, BUSY or an output. That BUSY 1 and an asserted reset do not meet is part of the invariant. -/
def Obligations.BusyWindowKeepsOperandsAndOutputs : Prop :=
  ∀ (s t : State) (x : Input), s.resetHeld = false → s.busy = true → x ≠ .assertReset → applyInput x s = .next t →
    SameOperands s t ∧ SameOutputs s t ∧ t.cmdLast = s.cmdLast ∧ t.engine = s.engine ∧ t.busy = true

/-- R84, R80: an access during the BUSY window, whatever it is, makes no difference to what the operation writes: run
with and without it, the outputs and the code are the same. That BUSY 1 and an asserted reset do not meet is part of the
invariant. -/
def Obligations.AccessDuringBusyCannotChangeTheResult : Prop :=
  ∀ (s s1 : State) (x : Input) (i : Instr), s.resetHeld = false → s.busy = true → x ≠ .assertReset →
    applyInput x s = .next s1 →
    ∃ t t1, exec i s = .next t ∧ exec i s1 = .next t1 ∧ SameOutputs t t1 ∧ SameOperands t t1 ∧
      t1.errCode = t.errCode

/-- R45, R215: where every input byte an operation reads has been written since the last reset, what the RAM held
before makes no difference to the operation: with another count epoch, behind which the free bytes are others, the
next state is the same but for that count (log 1). -/
def Obligations.WrittenInputsDecideTheResult : Prop :=
  ∀ (i : Instr) (s : State) (e : Nat), inputWritten s = true →
    ∃ t, exec i s = .next t ∧ exec i { s with epoch := e } = .next { t with epoch := e }

/-! ### The configuration -/

/-- R8: exec and step are the execute step and the step under this hardware's configuration, and under every
configuration the step runs the decoded instruction of the issued word under that configuration. Turns are the model's
own (log 4). -/
def Obligations.HardwareIsTheConfiguredInstance : Prop :=
  (∀ (i : Instr) (s : State), exec i s = execWith Config.hardware i s) ∧
  (∀ s : State, step s = stepWith Config.hardware s) ∧
  (∀ (c : Config) (s : State) (v : Word) (i : Instr), s.engine = .run v →
    (s.turns.headD .engine = .engine ∨ s.pending = []) → decode v = .ok i →
    stepWith c s = execWith c i { s with turns := s.turns.tail })

/-- R8, R130, R140, R155: under every configuration each operation completes where its checks pass, with the results
its rule gives for that table and that stop setting, and changes nothing else; where a check fails it does what it does
under any other configuration. -/
def Obligations.OperationsUseTheConfiguredParameters : Prop :=
  ∀ (c : Config) (s : State),
    (∀ i, codeOf i s ≠ 0 → execWith c i s = .next (rejectedWith (codeOf i s) s)) ∧
    execWith c .nop s = .next { s with errCode := 0, busy := false, done := true, engine := .idle } ∧
    (s.len.toNat ≤ 128 → execWith c .crc s =
      .next { s with
        result := crc c.crcTable (inBytes s s.len.toNat)
        errCode := 0, busy := false, done := true, engine := .idle }) ∧
    (s.len.toNat ≤ 112 → ∃ t, execWith c .frame s = .next t ∧
      bytesAt t 0x180 (s.len.toNat + 2) = frame c.crcTable (inBytes s s.len.toNat) ∧
      t.outLen.toNat = s.len.toNat + 2 ∧ t.result = byteAt t (0x180 + s.len.toNat + 1) ∧
      (∀ a, a < 0x180 ∨ 0x180 + (s.len.toNat + 2) ≤ a → byteAt t a = byteAt s a) ∧
      t = { s with mem := t.mem, outLen := t.outLen, result := t.result, errCode := 0, busy := false, done := true,
                   engine := .idle }) ∧
    (1 ≤ s.len.toNat → s.len.toNat ≤ 128 → s.unitWidth ≠ 0 → ∃ t d, execWith c .encode s = .next t ∧
      d = pulseEncode c.stopEachByte (inBytes s s.len.toNat) s.unitWidth.toNat ∧
      t.pulseCount.toNat = d.length ∧ (pulsesAt t d.length).map BitVec.toNat = d ∧
      (∀ a, a < 0x2000 ∨ 0x2000 + 4 * d.length ≤ a → byteAt t a = byteAt s a) ∧
      t = { s with mem := t.mem, pulseCount := t.pulseCount, errCode := 0, busy := false, done := true,
                   engine := .idle }) ∧
    (s.len.toNat ≤ 112 → s.unitWidth ≠ 0 → ∃ t f d, execWith c .frameEnc s = .next t ∧
      f = frame c.crcTable (inBytes s s.len.toNat) ∧ d = pulseEncode c.stopEachByte f s.unitWidth.toNat ∧
      bytesAt t 0x180 (s.len.toNat + 2) = f ∧ t.outLen.toNat = s.len.toNat + 2 ∧
      t.result = byteAt t (0x180 + s.len.toNat + 1) ∧
      t.pulseCount.toNat = d.length ∧ (pulsesAt t d.length).map BitVec.toNat = d ∧
      (∀ a, (a < 0x180 ∨ 0x180 + (s.len.toNat + 2) ≤ a) → (a < 0x2000 ∨ 0x2000 + 4 * d.length ≤ a) →
        byteAt t a = byteAt s a) ∧
      t = { s with mem := t.mem, outLen := t.outLen, result := t.result, pulseCount := t.pulseCount, errCode := 0,
                   busy := false, done := true, engine := .idle }) ∧
    (s.len.toNat ≤ 111 → ∃ t, execWith c .expand s = .next t ∧
      (∀ i : Fin 16,
        if (16 - i.val) * 100 ≤ s.absTime.toNat then
          t.expTime[i].toNat = s.absTime.toNat - (16 - i.val) * 100 ∧ t.expLen[i].toNat = s.len.toNat + 3 ∧
          t.expValid.getLsbD i.val = true ∧
          bytesAt t (0x800 + 0x80 * i.val) (s.len.toNat + 3) =
            frame c.crcTable (Config.delayTable[i] :: inBytes s s.len.toNat) ∧
          (∀ k, s.len.toNat + 3 ≤ k → k < 0x80 →
            byteAt t (0x800 + 0x80 * i.val + k) = byteAt s (0x800 + 0x80 * i.val + k))
        else
          t.expTime[i] = 0 ∧ t.expLen[i] = 0 ∧ t.expValid.getLsbD i.val = false ∧
          (∀ k, k < 0x80 → byteAt t (0x800 + 0x80 * i.val + k) = byteAt s (0x800 + 0x80 * i.val + k))) ∧
      (∀ a, a < 0x800 ∨ 0x1000 ≤ a → byteAt t a = byteAt s a) ∧
      t = { s with mem := t.mem, expTime := t.expTime, expLen := t.expLen, expValid := t.expValid, errCode := 0,
                   busy := false, done := true, engine := .idle })

/-- R8: under every configuration the invariant of that configuration holds at reset and every step keeps it, so no
buffer overflows whichever table and stop setting are given (R159). The canonical form of storage is the model's
(log 1). -/
def Obligations.EveryConfigurationKeepsItsInvariant : Prop :=
  ∀ c : Config, InvWith c State.reset ∧
    ∀ s t : State, InvWith c s → stepWith c s = .next t → InvWith c t

/-! ### Reset held -/

/-- R210: while the reset input is asserted, whatever the next step is (a write of any word anywhere, a read, a POLL,
waiting), every register and the engine keep their reset values, no storage byte counts as written, irq is low and BUSY
0; and only releasing the input ends this. That storage takes no write then is the model's deduction (log 5). -/
def Obligations.AssertedResetHoldsResetValues : Prop :=
  ∀ s t : State, Inv s → s.resetHeld = true → step s = .next t →
    AtReset t ∧ irq t = false ∧ t.busy = false ∧ t.engine = .idle ∧
    (t.resetHeld = false → nextMove s = .input .releaseReset) ∧
    (nextMove s = .input .releaseReset → t.resetHeld = false)
end

