-- ==== Sys2Proof/Laws/Codec.lean ====
section
/-! SUPPORT. What the pure functions answer: lengths, sums, bounds and the bits of the valid mask. -/

namespace Sys2Proof.Machine

/-! ### CRC and frames -/

theorem crc_append (T : Vector Byte 256) (m : List Byte) (b : Byte) :
    crc T (m ++ [b]) = tableAt T (crc T m ^^^ b) := by
  simp [crc]

theorem frame_length (T : Vector Byte 256) (p : List Byte) : (frame T p).length = p.length + 2 := by
  simp [frame]

theorem frame_getLastD (T : Vector Byte 256) (p : List Byte) :
    (frame T p).getLastD 0 = crc T (lengthByte p :: p) := by
  have h : frame T p = (lengthByte p :: p) ++ [crc T (lengthByte p :: p)] := rfl
  rw [h, List.getLastD_eq_getLast?, List.getLast?_concat, Option.getD_some]

/-! ### Pulses -/

theorem byteSymbols_length (b : Byte) : (byteSymbols b).length = 9 := by
  simp [byteSymbols]

theorem dataSymbols_length (stopEach : Bool) (bs : List Byte) :
    (dataSymbols stopEach bs).length = 9 * bs.length + if stopEach then bs.length - 1 else 0 := by
  induction bs using dataSymbols.induct with
  | case1 => simp [dataSymbols]
  | case2 b => cases stopEach <;> simp [dataSymbols, byteSymbols_length]
  | case3 b bs hne ih =>
    have hlen : bs.length ≠ 0 := fun h => hne (List.length_eq_zero_iff.mp h)
    rw [dataSymbols.eq_3 _ _ _ hne]
    cases stopEach <;> simp [ih, byteSymbols_length] <;> omega

theorem symbols_length (stopEach : Bool) (bs : List Byte) :
    (symbols stopEach bs).length = 9 * bs.length + (if stopEach then bs.length - 1 else 0) + 1 := by
  simp [symbols, dataSymbols_length]

/-- One symbol adds at most one duration, and adds the width to their sum. -/
theorem extendOrAppend_length (w : Nat) (e : Encoder) (b : Bool) :
    (extendOrAppend w e b).durations.length ≤ e.durations.length + 1 ∧
    (extendOrAppend w e b).durations.sum = e.durations.sum + w := by
  unfold extendOrAppend
  cases h : e.durations with
  | nil => simp
  | cons d ds => by_cases hb : b = e.level <;> simp [hb] <;> omega

theorem foldl_extendOrAppend (w : Nat) (σ : List Bool) (e : Encoder) :
    (σ.foldl (extendOrAppend w) e).durations.length ≤ e.durations.length + σ.length ∧
    (σ.foldl (extendOrAppend w) e).durations.sum = e.durations.sum + w * σ.length := by
  induction σ generalizing e with
  | nil => simp
  | cons b σ ih =>
    have h1 := ih (extendOrAppend w e b)
    have h2 := extendOrAppend_length w e b
    have h3 : w * (σ.length + 1) = w * σ.length + w := by ring
    simp only [List.foldl_cons, List.length_cons, h3]
    omega

theorem pulseEncode_length_le (stopEach : Bool) (bs : List Byte) (w : Nat) :
    (pulseEncode stopEach bs w).length ≤ (symbols stopEach bs).length := by
  simpa [pulseEncode, encoderStart] using (foldl_extendOrAppend w (symbols stopEach bs) encoderStart).1

theorem pulseEncode_sum (stopEach : Bool) (bs : List Byte) (w : Nat) :
    (pulseEncode stopEach bs w).sum = w * (symbols stopEach bs).length := by
  simpa [pulseEncode, encoderStart] using (foldl_extendOrAppend w (symbols stopEach bs) encoderStart).2

theorem pulseEncode_mem_le (stopEach : Bool) (bs : List Byte) (w d : Nat) (h : d ∈ pulseEncode stopEach bs w) :
    d ≤ w * (symbols stopEach bs).length := by
  rw [← pulseEncode_sum]
  exact List.le_sum_of_mem h

/-- What fits PULSE_BUF and its entries (R159). -/
theorem pulseEncode_fits (stopEach : Bool) (bs : List Byte) (w : Nat) (hb : bs.length ≤ 128) (hw : w ≤ 65535) :
    (pulseEncode stopEach bs w).length ≤ 1280 ∧ ∀ d ∈ pulseEncode stopEach bs w, d < 2 ^ 32 := by
  have hlen : (symbols stopEach bs).length ≤ 1280 := by
    rw [symbols_length]
    split <;> omega
  refine ⟨(pulseEncode_length_le _ _ _).trans hlen, fun d hd => ?_⟩
  have h1 := pulseEncode_mem_le _ _ _ _ hd
  have h2 := Nat.mul_le_mul hw hlen
  omega

/-- Durations that fit 32 bits come back from PULSE_BUF whole. -/
theorem map_toNat_ofNat (d : List Nat) (h : ∀ x ∈ d, x < 2 ^ 32) :
    (d.map (BitVec.ofNat 32)).map BitVec.toNat = d := by
  rw [List.map_map]
  conv => rhs; rw [← List.map_id d]
  refine List.map_congr_left (fun x hx => ?_)
  simpa using Nat.mod_eq_of_lt (h x hx)

/-! ### Delay buckets -/

theorem bucketValid_iff (t i : Nat) : bucketValid t i = true ↔ (16 - i) * 100 ≤ t := by
  unfold bucketValid
  rw [decide_eq_true_iff]
  simp only [bucket, bucketOffset, Config.nBuckets, Config.bucketWidth]
  omega

theorem slotTime_toNat (t : Nat) (i : Fin 16) (ht : t < 2 ^ 32) (h : bucketValid t i = true) :
    (slotTime t i).toNat = t - (16 - i.val) * 100 := by
  have h' := (bucketValid_iff t i).mp h
  have hb : bucket t i.val = ((t - (16 - i.val) * 100 : Nat) : Int) := by
    simp only [bucket, bucketOffset, Config.nBuckets, Config.bucketWidth]
    omega
  have hlt : t - (16 - i.val) * 100 < 2 ^ 32 := by omega
  simp only [slotTime, h, if_true, hb, BitVec.ofInt_natCast, BitVec.toNat_ofNat]
  exact Nat.mod_eq_of_lt hlt

theorem slotLen_toNat (t n : Nat) (i : Fin 16) (hn : n ≤ 111) (h : bucketValid t i = true) :
    (slotLen t n i).toNat = n + 3 := by
  simp only [slotLen, h, if_true, BitVec.toNat_ofNat]
  omega

theorem shiftLeft_one_getLsbD : ∀ i j : Fin 16, ((1 : Half) <<< j.val).getLsbD i.val = decide (i = j) := by
  decide

/-- The mask R174 builds has exactly the bits of the buckets that pass. -/
theorem foldl_mask_getLsbD (p : Fin 16 → Bool) (l : List (Fin 16)) (m : Half) (i : Fin 16) :
    (l.foldl (fun (m : Half) (j : Fin 16) => if p j then m ||| ((1 : Half) <<< j.val) else m) m).getLsbD i.val =
      (m.getLsbD i.val || (decide (i ∈ l) && p i)) := by
  induction l generalizing m with
  | nil => simp
  | cons j l ih =>
    rw [List.foldl_cons, ih]
    have hbit := shiftLeft_one_getLsbD i j
    by_cases hp : p j = true
    · by_cases hij : i = j
      · subst hij
        simp only [hp, if_true, BitVec.getLsbD_or, hbit, List.mem_cons, true_or, decide_true, Bool.or_true,
          Bool.true_or, Bool.true_and]
      · simp only [hp, if_true, BitVec.getLsbD_or, hbit, hij, List.mem_cons, false_or, decide_false, Bool.or_false]
    · by_cases hij : i = j
      · subst hij
        simp [hp]
      · simp only [hp, if_false, hij, List.mem_cons, false_or, Bool.false_eq_true]

theorem validMask_getLsbD (t : Nat) (i : Fin 16) : (validMask t).getLsbD i.val = bucketValid t i.val := by
  simpa [validMask] using foldl_mask_getLsbD (fun j => bucketValid t j.val) (List.finRange 16) 0 i

end Sys2Proof.Machine
end

