-- ==== Sys2Proof/Laws/State.lean ====
section
/-! SUPPORT. One lemma per field per update of State, so that no later proof unfolds a record update. -/

namespace Sys2Proof.Machine

/-! ### issue (R110) -/

@[simp] theorem issue_cmdLast (v : Word) (s : State) : (issue v s).cmdLast = v := rfl
@[simp] theorem issue_busy (v : Word) (s : State) : (issue v s).busy = true := rfl
@[simp] theorem issue_done (v : Word) (s : State) : (issue v s).done = false := rfl
@[simp] theorem issue_err (v : Word) (s : State) : (issue v s).err = s.err := rfl
@[simp] theorem issue_werr (v : Word) (s : State) : (issue v s).werr = s.werr := rfl
@[simp] theorem issue_errCode (v : Word) (s : State) : (issue v s).errCode = s.errCode := rfl
@[simp] theorem issue_ie (v : Word) (s : State) : (issue v s).ie = s.ie := rfl
@[simp] theorem issue_len (v : Word) (s : State) : (issue v s).len = s.len := rfl
@[simp] theorem issue_unitWidth (v : Word) (s : State) : (issue v s).unitWidth = s.unitWidth := rfl
@[simp] theorem issue_absTime (v : Word) (s : State) : (issue v s).absTime = s.absTime := rfl
@[simp] theorem issue_result (v : Word) (s : State) : (issue v s).result = s.result := rfl
@[simp] theorem issue_outLen (v : Word) (s : State) : (issue v s).outLen = s.outLen := rfl
@[simp] theorem issue_pulseCount (v : Word) (s : State) : (issue v s).pulseCount = s.pulseCount := rfl
@[simp] theorem issue_expValid (v : Word) (s : State) : (issue v s).expValid = s.expValid := rfl
@[simp] theorem issue_expTime (v : Word) (s : State) : (issue v s).expTime = s.expTime := rfl
@[simp] theorem issue_expLen (v : Word) (s : State) : (issue v s).expLen = s.expLen := rfl
@[simp] theorem issue_mem (v : Word) (s : State) : (issue v s).mem = s.mem := rfl
@[simp] theorem issue_engine (v : Word) (s : State) : (issue v s).engine = .run v := rfl
@[simp] theorem issue_resetHeld (v : Word) (s : State) : (issue v s).resetHeld = s.resetHeld := rfl
@[simp] theorem issue_pending (v : Word) (s : State) : (issue v s).pending = s.pending := rfl
@[simp] theorem issue_turns (v : Word) (s : State) : (issue v s).turns = s.turns := rfl
@[simp] theorem issue_answers (v : Word) (s : State) : (issue v s).answers = s.answers := rfl
@[simp] theorem issue_draws (v : Word) (s : State) : (issue v s).draws = s.draws := rfl
@[simp] theorem issue_epoch (v : Word) (s : State) : (issue v s).epoch = s.epoch := rfl

/-! ### complete (R114) -/

@[simp] theorem complete_cmdLast (c : ResultCode) (s : State) : (complete c s).cmdLast = s.cmdLast := rfl
@[simp] theorem complete_busy (c : ResultCode) (s : State) : (complete c s).busy = false := rfl
@[simp] theorem complete_done (c : ResultCode) (s : State) : (complete c s).done = true := rfl
@[simp] theorem complete_err (c : ResultCode) (s : State) : (complete c s).err = if c = .ok then s.err else true := rfl
@[simp] theorem complete_werr (c : ResultCode) (s : State) : (complete c s).werr = s.werr := rfl
@[simp] theorem complete_errCode (c : ResultCode) (s : State) : (complete c s).errCode = c.bits := rfl
@[simp] theorem complete_ie (c : ResultCode) (s : State) : (complete c s).ie = s.ie := rfl
@[simp] theorem complete_len (c : ResultCode) (s : State) : (complete c s).len = s.len := rfl
@[simp] theorem complete_unitWidth (c : ResultCode) (s : State) : (complete c s).unitWidth = s.unitWidth := rfl
@[simp] theorem complete_absTime (c : ResultCode) (s : State) : (complete c s).absTime = s.absTime := rfl
@[simp] theorem complete_result (c : ResultCode) (s : State) : (complete c s).result = s.result := rfl
@[simp] theorem complete_outLen (c : ResultCode) (s : State) : (complete c s).outLen = s.outLen := rfl
@[simp] theorem complete_pulseCount (c : ResultCode) (s : State) : (complete c s).pulseCount = s.pulseCount := rfl
@[simp] theorem complete_expValid (c : ResultCode) (s : State) : (complete c s).expValid = s.expValid := rfl
@[simp] theorem complete_expTime (c : ResultCode) (s : State) : (complete c s).expTime = s.expTime := rfl
@[simp] theorem complete_expLen (c : ResultCode) (s : State) : (complete c s).expLen = s.expLen := rfl
@[simp] theorem complete_mem (c : ResultCode) (s : State) : (complete c s).mem = s.mem := rfl
@[simp] theorem complete_engine (c : ResultCode) (s : State) : (complete c s).engine = .idle := rfl
@[simp] theorem complete_resetHeld (c : ResultCode) (s : State) : (complete c s).resetHeld = s.resetHeld := rfl
@[simp] theorem complete_pending (c : ResultCode) (s : State) : (complete c s).pending = s.pending := rfl
@[simp] theorem complete_turns (c : ResultCode) (s : State) : (complete c s).turns = s.turns := rfl
@[simp] theorem complete_answers (c : ResultCode) (s : State) : (complete c s).answers = s.answers := rfl
@[simp] theorem complete_draws (c : ResultCode) (s : State) : (complete c s).draws = s.draws := rfl
@[simp] theorem complete_epoch (c : ResultCode) (s : State) : (complete c s).epoch = s.epoch := rfl

/-! ### a STATUS write (R79) -/

@[simp] theorem clearFlags_cmdLast (v : Word) (s : State) : (clearFlags v s).cmdLast = s.cmdLast := rfl
@[simp] theorem clearFlags_busy (v : Word) (s : State) : (clearFlags v s).busy = s.busy := rfl
@[simp] theorem clearFlags_done (v : Word) (s : State) : (clearFlags v s).done = (s.done && !v.getLsbD 1) := rfl
@[simp] theorem clearFlags_err (v : Word) (s : State) : (clearFlags v s).err = (s.err && !v.getLsbD 2) := rfl
@[simp] theorem clearFlags_werr (v : Word) (s : State) : (clearFlags v s).werr = (s.werr && !v.getLsbD 3) := rfl
@[simp] theorem clearFlags_errCode (v : Word) (s : State) : (clearFlags v s).errCode = s.errCode := rfl
@[simp] theorem clearFlags_ie (v : Word) (s : State) : (clearFlags v s).ie = s.ie := rfl
@[simp] theorem clearFlags_len (v : Word) (s : State) : (clearFlags v s).len = s.len := rfl
@[simp] theorem clearFlags_unitWidth (v : Word) (s : State) : (clearFlags v s).unitWidth = s.unitWidth := rfl
@[simp] theorem clearFlags_absTime (v : Word) (s : State) : (clearFlags v s).absTime = s.absTime := rfl
@[simp] theorem clearFlags_result (v : Word) (s : State) : (clearFlags v s).result = s.result := rfl
@[simp] theorem clearFlags_outLen (v : Word) (s : State) : (clearFlags v s).outLen = s.outLen := rfl
@[simp] theorem clearFlags_pulseCount (v : Word) (s : State) : (clearFlags v s).pulseCount = s.pulseCount := rfl
@[simp] theorem clearFlags_expValid (v : Word) (s : State) : (clearFlags v s).expValid = s.expValid := rfl
@[simp] theorem clearFlags_expTime (v : Word) (s : State) : (clearFlags v s).expTime = s.expTime := rfl
@[simp] theorem clearFlags_expLen (v : Word) (s : State) : (clearFlags v s).expLen = s.expLen := rfl
@[simp] theorem clearFlags_mem (v : Word) (s : State) : (clearFlags v s).mem = s.mem := rfl
@[simp] theorem clearFlags_engine (v : Word) (s : State) : (clearFlags v s).engine = s.engine := rfl
@[simp] theorem clearFlags_resetHeld (v : Word) (s : State) : (clearFlags v s).resetHeld = s.resetHeld := rfl
@[simp] theorem clearFlags_pending (v : Word) (s : State) : (clearFlags v s).pending = s.pending := rfl
@[simp] theorem clearFlags_turns (v : Word) (s : State) : (clearFlags v s).turns = s.turns := rfl
@[simp] theorem clearFlags_answers (v : Word) (s : State) : (clearFlags v s).answers = s.answers := rfl
@[simp] theorem clearFlags_draws (v : Word) (s : State) : (clearFlags v s).draws = s.draws := rfl
@[simp] theorem clearFlags_epoch (v : Word) (s : State) : (clearFlags v s).epoch = s.epoch := rfl

/-! ### a dropped write (R192) -/

@[simp] theorem dropWrite_cmdLast (s : State) : (dropWrite s).cmdLast = s.cmdLast := rfl
@[simp] theorem dropWrite_busy (s : State) : (dropWrite s).busy = s.busy := rfl
@[simp] theorem dropWrite_done (s : State) : (dropWrite s).done = s.done := rfl
@[simp] theorem dropWrite_err (s : State) : (dropWrite s).err = s.err := rfl
@[simp] theorem dropWrite_werr (s : State) : (dropWrite s).werr = true := rfl
@[simp] theorem dropWrite_errCode (s : State) : (dropWrite s).errCode = s.errCode := rfl
@[simp] theorem dropWrite_ie (s : State) : (dropWrite s).ie = s.ie := rfl
@[simp] theorem dropWrite_len (s : State) : (dropWrite s).len = s.len := rfl
@[simp] theorem dropWrite_unitWidth (s : State) : (dropWrite s).unitWidth = s.unitWidth := rfl
@[simp] theorem dropWrite_absTime (s : State) : (dropWrite s).absTime = s.absTime := rfl
@[simp] theorem dropWrite_result (s : State) : (dropWrite s).result = s.result := rfl
@[simp] theorem dropWrite_outLen (s : State) : (dropWrite s).outLen = s.outLen := rfl
@[simp] theorem dropWrite_pulseCount (s : State) : (dropWrite s).pulseCount = s.pulseCount := rfl
@[simp] theorem dropWrite_expValid (s : State) : (dropWrite s).expValid = s.expValid := rfl
@[simp] theorem dropWrite_expTime (s : State) : (dropWrite s).expTime = s.expTime := rfl
@[simp] theorem dropWrite_expLen (s : State) : (dropWrite s).expLen = s.expLen := rfl
@[simp] theorem dropWrite_mem (s : State) : (dropWrite s).mem = s.mem := rfl
@[simp] theorem dropWrite_engine (s : State) : (dropWrite s).engine = s.engine := rfl
@[simp] theorem dropWrite_resetHeld (s : State) : (dropWrite s).resetHeld = s.resetHeld := rfl
@[simp] theorem dropWrite_pending (s : State) : (dropWrite s).pending = s.pending := rfl
@[simp] theorem dropWrite_turns (s : State) : (dropWrite s).turns = s.turns := rfl
@[simp] theorem dropWrite_answers (s : State) : (dropWrite s).answers = s.answers := rfl
@[simp] theorem dropWrite_draws (s : State) : (dropWrite s).draws = s.draws := rfl
@[simp] theorem dropWrite_epoch (s : State) : (dropWrite s).epoch = s.epoch := rfl

/-! ### storing bytes -/

@[simp] theorem storeBytes_cmdLast (a : Nat) (bs : List Byte) (s : State) : (storeBytes a bs s).cmdLast = s.cmdLast := rfl
@[simp] theorem storeBytes_busy (a : Nat) (bs : List Byte) (s : State) : (storeBytes a bs s).busy = s.busy := rfl
@[simp] theorem storeBytes_done (a : Nat) (bs : List Byte) (s : State) : (storeBytes a bs s).done = s.done := rfl
@[simp] theorem storeBytes_err (a : Nat) (bs : List Byte) (s : State) : (storeBytes a bs s).err = s.err := rfl
@[simp] theorem storeBytes_werr (a : Nat) (bs : List Byte) (s : State) : (storeBytes a bs s).werr = s.werr := rfl
@[simp] theorem storeBytes_errCode (a : Nat) (bs : List Byte) (s : State) : (storeBytes a bs s).errCode = s.errCode := rfl
@[simp] theorem storeBytes_ie (a : Nat) (bs : List Byte) (s : State) : (storeBytes a bs s).ie = s.ie := rfl
@[simp] theorem storeBytes_len (a : Nat) (bs : List Byte) (s : State) : (storeBytes a bs s).len = s.len := rfl
@[simp] theorem storeBytes_unitWidth (a : Nat) (bs : List Byte) (s : State) : (storeBytes a bs s).unitWidth = s.unitWidth := rfl
@[simp] theorem storeBytes_absTime (a : Nat) (bs : List Byte) (s : State) : (storeBytes a bs s).absTime = s.absTime := rfl
@[simp] theorem storeBytes_result (a : Nat) (bs : List Byte) (s : State) : (storeBytes a bs s).result = s.result := rfl
@[simp] theorem storeBytes_outLen (a : Nat) (bs : List Byte) (s : State) : (storeBytes a bs s).outLen = s.outLen := rfl
@[simp] theorem storeBytes_pulseCount (a : Nat) (bs : List Byte) (s : State) : (storeBytes a bs s).pulseCount = s.pulseCount := rfl
@[simp] theorem storeBytes_expValid (a : Nat) (bs : List Byte) (s : State) : (storeBytes a bs s).expValid = s.expValid := rfl
@[simp] theorem storeBytes_expTime (a : Nat) (bs : List Byte) (s : State) : (storeBytes a bs s).expTime = s.expTime := rfl
@[simp] theorem storeBytes_expLen (a : Nat) (bs : List Byte) (s : State) : (storeBytes a bs s).expLen = s.expLen := rfl
@[simp] theorem storeBytes_mem (a : Nat) (bs : List Byte) (s : State) : (storeBytes a bs s).mem = s.mem.writeBytes a bs := rfl
@[simp] theorem storeBytes_engine (a : Nat) (bs : List Byte) (s : State) : (storeBytes a bs s).engine = s.engine := rfl
@[simp] theorem storeBytes_resetHeld (a : Nat) (bs : List Byte) (s : State) : (storeBytes a bs s).resetHeld = s.resetHeld := rfl
@[simp] theorem storeBytes_pending (a : Nat) (bs : List Byte) (s : State) : (storeBytes a bs s).pending = s.pending := rfl
@[simp] theorem storeBytes_turns (a : Nat) (bs : List Byte) (s : State) : (storeBytes a bs s).turns = s.turns := rfl
@[simp] theorem storeBytes_answers (a : Nat) (bs : List Byte) (s : State) : (storeBytes a bs s).answers = s.answers := rfl
@[simp] theorem storeBytes_draws (a : Nat) (bs : List Byte) (s : State) : (storeBytes a bs s).draws = s.draws := rfl
@[simp] theorem storeBytes_epoch (a : Nat) (bs : List Byte) (s : State) : (storeBytes a bs s).epoch = s.epoch := rfl

/-! ### storing a frame (R143) -/

@[simp] theorem storeFrame_cmdLast (f : List Byte) (s : State) : (storeFrame f s).cmdLast = s.cmdLast := rfl
@[simp] theorem storeFrame_busy (f : List Byte) (s : State) : (storeFrame f s).busy = s.busy := rfl
@[simp] theorem storeFrame_done (f : List Byte) (s : State) : (storeFrame f s).done = s.done := rfl
@[simp] theorem storeFrame_err (f : List Byte) (s : State) : (storeFrame f s).err = s.err := rfl
@[simp] theorem storeFrame_werr (f : List Byte) (s : State) : (storeFrame f s).werr = s.werr := rfl
@[simp] theorem storeFrame_errCode (f : List Byte) (s : State) : (storeFrame f s).errCode = s.errCode := rfl
@[simp] theorem storeFrame_ie (f : List Byte) (s : State) : (storeFrame f s).ie = s.ie := rfl
@[simp] theorem storeFrame_len (f : List Byte) (s : State) : (storeFrame f s).len = s.len := rfl
@[simp] theorem storeFrame_unitWidth (f : List Byte) (s : State) : (storeFrame f s).unitWidth = s.unitWidth := rfl
@[simp] theorem storeFrame_absTime (f : List Byte) (s : State) : (storeFrame f s).absTime = s.absTime := rfl
@[simp] theorem storeFrame_result (f : List Byte) (s : State) : (storeFrame f s).result = f.getLastD 0 := rfl
@[simp] theorem storeFrame_outLen (f : List Byte) (s : State) : (storeFrame f s).outLen = BitVec.ofNat 8 f.length := rfl
@[simp] theorem storeFrame_pulseCount (f : List Byte) (s : State) : (storeFrame f s).pulseCount = s.pulseCount := rfl
@[simp] theorem storeFrame_expValid (f : List Byte) (s : State) : (storeFrame f s).expValid = s.expValid := rfl
@[simp] theorem storeFrame_expTime (f : List Byte) (s : State) : (storeFrame f s).expTime = s.expTime := rfl
@[simp] theorem storeFrame_expLen (f : List Byte) (s : State) : (storeFrame f s).expLen = s.expLen := rfl
@[simp] theorem storeFrame_mem (f : List Byte) (s : State) : (storeFrame f s).mem = s.mem.writeBytes outBufBase f := rfl
@[simp] theorem storeFrame_engine (f : List Byte) (s : State) : (storeFrame f s).engine = s.engine := rfl
@[simp] theorem storeFrame_resetHeld (f : List Byte) (s : State) : (storeFrame f s).resetHeld = s.resetHeld := rfl
@[simp] theorem storeFrame_pending (f : List Byte) (s : State) : (storeFrame f s).pending = s.pending := rfl
@[simp] theorem storeFrame_turns (f : List Byte) (s : State) : (storeFrame f s).turns = s.turns := rfl
@[simp] theorem storeFrame_answers (f : List Byte) (s : State) : (storeFrame f s).answers = s.answers := rfl
@[simp] theorem storeFrame_draws (f : List Byte) (s : State) : (storeFrame f s).draws = s.draws := rfl
@[simp] theorem storeFrame_epoch (f : List Byte) (s : State) : (storeFrame f s).epoch = s.epoch := rfl

/-! ### storing pulses (R157) -/

@[simp] theorem storePulses_cmdLast (d : List Nat) (s : State) : (storePulses d s).cmdLast = s.cmdLast := rfl
@[simp] theorem storePulses_busy (d : List Nat) (s : State) : (storePulses d s).busy = s.busy := rfl
@[simp] theorem storePulses_done (d : List Nat) (s : State) : (storePulses d s).done = s.done := rfl
@[simp] theorem storePulses_err (d : List Nat) (s : State) : (storePulses d s).err = s.err := rfl
@[simp] theorem storePulses_werr (d : List Nat) (s : State) : (storePulses d s).werr = s.werr := rfl
@[simp] theorem storePulses_errCode (d : List Nat) (s : State) : (storePulses d s).errCode = s.errCode := rfl
@[simp] theorem storePulses_ie (d : List Nat) (s : State) : (storePulses d s).ie = s.ie := rfl
@[simp] theorem storePulses_len (d : List Nat) (s : State) : (storePulses d s).len = s.len := rfl
@[simp] theorem storePulses_unitWidth (d : List Nat) (s : State) : (storePulses d s).unitWidth = s.unitWidth := rfl
@[simp] theorem storePulses_absTime (d : List Nat) (s : State) : (storePulses d s).absTime = s.absTime := rfl
@[simp] theorem storePulses_result (d : List Nat) (s : State) : (storePulses d s).result = s.result := rfl
@[simp] theorem storePulses_outLen (d : List Nat) (s : State) : (storePulses d s).outLen = s.outLen := rfl
@[simp] theorem storePulses_pulseCount (d : List Nat) (s : State) : (storePulses d s).pulseCount = BitVec.ofNat 16 d.length := rfl
@[simp] theorem storePulses_expValid (d : List Nat) (s : State) : (storePulses d s).expValid = s.expValid := rfl
@[simp] theorem storePulses_expTime (d : List Nat) (s : State) : (storePulses d s).expTime = s.expTime := rfl
@[simp] theorem storePulses_expLen (d : List Nat) (s : State) : (storePulses d s).expLen = s.expLen := rfl
@[simp] theorem storePulses_mem (d : List Nat) (s : State) : (storePulses d s).mem = s.mem.writeBytes pulseBufBase (pulseBytes d) := rfl
@[simp] theorem storePulses_engine (d : List Nat) (s : State) : (storePulses d s).engine = s.engine := rfl
@[simp] theorem storePulses_resetHeld (d : List Nat) (s : State) : (storePulses d s).resetHeld = s.resetHeld := rfl
@[simp] theorem storePulses_pending (d : List Nat) (s : State) : (storePulses d s).pending = s.pending := rfl
@[simp] theorem storePulses_turns (d : List Nat) (s : State) : (storePulses d s).turns = s.turns := rfl
@[simp] theorem storePulses_answers (d : List Nat) (s : State) : (storePulses d s).answers = s.answers := rfl
@[simp] theorem storePulses_draws (d : List Nat) (s : State) : (storePulses d s).draws = s.draws := rfl
@[simp] theorem storePulses_epoch (d : List Nat) (s : State) : (storePulses d s).epoch = s.epoch := rfl

/-! ### using up a turn (R80) -/

@[simp] theorem passTurn_cmdLast (s : State) : (passTurn s).cmdLast = s.cmdLast := rfl
@[simp] theorem passTurn_busy (s : State) : (passTurn s).busy = s.busy := rfl
@[simp] theorem passTurn_done (s : State) : (passTurn s).done = s.done := rfl
@[simp] theorem passTurn_err (s : State) : (passTurn s).err = s.err := rfl
@[simp] theorem passTurn_werr (s : State) : (passTurn s).werr = s.werr := rfl
@[simp] theorem passTurn_errCode (s : State) : (passTurn s).errCode = s.errCode := rfl
@[simp] theorem passTurn_ie (s : State) : (passTurn s).ie = s.ie := rfl
@[simp] theorem passTurn_len (s : State) : (passTurn s).len = s.len := rfl
@[simp] theorem passTurn_unitWidth (s : State) : (passTurn s).unitWidth = s.unitWidth := rfl
@[simp] theorem passTurn_absTime (s : State) : (passTurn s).absTime = s.absTime := rfl
@[simp] theorem passTurn_result (s : State) : (passTurn s).result = s.result := rfl
@[simp] theorem passTurn_outLen (s : State) : (passTurn s).outLen = s.outLen := rfl
@[simp] theorem passTurn_pulseCount (s : State) : (passTurn s).pulseCount = s.pulseCount := rfl
@[simp] theorem passTurn_expValid (s : State) : (passTurn s).expValid = s.expValid := rfl
@[simp] theorem passTurn_expTime (s : State) : (passTurn s).expTime = s.expTime := rfl
@[simp] theorem passTurn_expLen (s : State) : (passTurn s).expLen = s.expLen := rfl
@[simp] theorem passTurn_mem (s : State) : (passTurn s).mem = s.mem := rfl
@[simp] theorem passTurn_engine (s : State) : (passTurn s).engine = s.engine := rfl
@[simp] theorem passTurn_resetHeld (s : State) : (passTurn s).resetHeld = s.resetHeld := rfl
@[simp] theorem passTurn_pending (s : State) : (passTurn s).pending = s.pending := rfl
@[simp] theorem passTurn_turns (s : State) : (passTurn s).turns = s.turns.tail := rfl
@[simp] theorem passTurn_answers (s : State) : (passTurn s).answers = s.answers := rfl
@[simp] theorem passTurn_draws (s : State) : (passTurn s).draws = s.draws := rfl
@[simp] theorem passTurn_epoch (s : State) : (passTurn s).epoch = s.epoch := rfl

/-! ### taking the first pending thing (R80) -/

@[simp] theorem takeInput_cmdLast (s : State) : (takeInput s).cmdLast = s.cmdLast := rfl
@[simp] theorem takeInput_busy (s : State) : (takeInput s).busy = s.busy := rfl
@[simp] theorem takeInput_done (s : State) : (takeInput s).done = s.done := rfl
@[simp] theorem takeInput_err (s : State) : (takeInput s).err = s.err := rfl
@[simp] theorem takeInput_werr (s : State) : (takeInput s).werr = s.werr := rfl
@[simp] theorem takeInput_errCode (s : State) : (takeInput s).errCode = s.errCode := rfl
@[simp] theorem takeInput_ie (s : State) : (takeInput s).ie = s.ie := rfl
@[simp] theorem takeInput_len (s : State) : (takeInput s).len = s.len := rfl
@[simp] theorem takeInput_unitWidth (s : State) : (takeInput s).unitWidth = s.unitWidth := rfl
@[simp] theorem takeInput_absTime (s : State) : (takeInput s).absTime = s.absTime := rfl
@[simp] theorem takeInput_result (s : State) : (takeInput s).result = s.result := rfl
@[simp] theorem takeInput_outLen (s : State) : (takeInput s).outLen = s.outLen := rfl
@[simp] theorem takeInput_pulseCount (s : State) : (takeInput s).pulseCount = s.pulseCount := rfl
@[simp] theorem takeInput_expValid (s : State) : (takeInput s).expValid = s.expValid := rfl
@[simp] theorem takeInput_expTime (s : State) : (takeInput s).expTime = s.expTime := rfl
@[simp] theorem takeInput_expLen (s : State) : (takeInput s).expLen = s.expLen := rfl
@[simp] theorem takeInput_mem (s : State) : (takeInput s).mem = s.mem := rfl
@[simp] theorem takeInput_engine (s : State) : (takeInput s).engine = s.engine := rfl
@[simp] theorem takeInput_resetHeld (s : State) : (takeInput s).resetHeld = s.resetHeld := rfl
@[simp] theorem takeInput_pending (s : State) : (takeInput s).pending = s.pending.tail := rfl
@[simp] theorem takeInput_turns (s : State) : (takeInput s).turns = s.turns.tail := rfl
@[simp] theorem takeInput_answers (s : State) : (takeInput s).answers = s.answers := rfl
@[simp] theorem takeInput_draws (s : State) : (takeInput s).draws = s.draws := rfl
@[simp] theorem takeInput_epoch (s : State) : (takeInput s).epoch = s.epoch := rfl

/-! ### what a host read leaves (R76) -/

@[simp] theorem noteRead_cmdLast (off : Offset) (s : State) : (noteRead off s).cmdLast = s.cmdLast := rfl
@[simp] theorem noteRead_busy (off : Offset) (s : State) : (noteRead off s).busy = s.busy := rfl
@[simp] theorem noteRead_done (off : Offset) (s : State) : (noteRead off s).done = s.done := rfl
@[simp] theorem noteRead_err (off : Offset) (s : State) : (noteRead off s).err = s.err := rfl
@[simp] theorem noteRead_werr (off : Offset) (s : State) : (noteRead off s).werr = s.werr := rfl
@[simp] theorem noteRead_errCode (off : Offset) (s : State) : (noteRead off s).errCode = s.errCode := rfl
@[simp] theorem noteRead_ie (off : Offset) (s : State) : (noteRead off s).ie = s.ie := rfl
@[simp] theorem noteRead_len (off : Offset) (s : State) : (noteRead off s).len = s.len := rfl
@[simp] theorem noteRead_unitWidth (off : Offset) (s : State) : (noteRead off s).unitWidth = s.unitWidth := rfl
@[simp] theorem noteRead_absTime (off : Offset) (s : State) : (noteRead off s).absTime = s.absTime := rfl
@[simp] theorem noteRead_result (off : Offset) (s : State) : (noteRead off s).result = s.result := rfl
@[simp] theorem noteRead_outLen (off : Offset) (s : State) : (noteRead off s).outLen = s.outLen := rfl
@[simp] theorem noteRead_pulseCount (off : Offset) (s : State) : (noteRead off s).pulseCount = s.pulseCount := rfl
@[simp] theorem noteRead_expValid (off : Offset) (s : State) : (noteRead off s).expValid = s.expValid := rfl
@[simp] theorem noteRead_expTime (off : Offset) (s : State) : (noteRead off s).expTime = s.expTime := rfl
@[simp] theorem noteRead_expLen (off : Offset) (s : State) : (noteRead off s).expLen = s.expLen := rfl
@[simp] theorem noteRead_mem (off : Offset) (s : State) : (noteRead off s).mem = s.mem := rfl
@[simp] theorem noteRead_engine (off : Offset) (s : State) : (noteRead off s).engine = s.engine := rfl
@[simp] theorem noteRead_resetHeld (off : Offset) (s : State) : (noteRead off s).resetHeld = s.resetHeld := rfl
@[simp] theorem noteRead_pending (off : Offset) (s : State) : (noteRead off s).pending = s.pending := rfl
@[simp] theorem noteRead_turns (off : Offset) (s : State) : (noteRead off s).turns = s.turns := rfl
@[simp] theorem noteRead_answers (off : Offset) (s : State) : (noteRead off s).answers = memRead off s :: s.answers := rfl
@[simp] theorem noteRead_draws (off : Offset) (s : State) : (noteRead off s).draws = if readUnspecified off s then s.draws + 1 else s.draws := rfl
@[simp] theorem noteRead_epoch (off : Offset) (s : State) : (noteRead off s).epoch = s.epoch := rfl

/-! ### the reset input (R210) -/

@[simp] theorem resetBlock_cmdLast (held : Bool) (s : State) : (resetBlock held s).cmdLast = State.reset.cmdLast := rfl
@[simp] theorem resetBlock_busy (held : Bool) (s : State) : (resetBlock held s).busy = State.reset.busy := rfl
@[simp] theorem resetBlock_done (held : Bool) (s : State) : (resetBlock held s).done = State.reset.done := rfl
@[simp] theorem resetBlock_err (held : Bool) (s : State) : (resetBlock held s).err = State.reset.err := rfl
@[simp] theorem resetBlock_werr (held : Bool) (s : State) : (resetBlock held s).werr = State.reset.werr := rfl
@[simp] theorem resetBlock_errCode (held : Bool) (s : State) : (resetBlock held s).errCode = State.reset.errCode := rfl
@[simp] theorem resetBlock_ie (held : Bool) (s : State) : (resetBlock held s).ie = State.reset.ie := rfl
@[simp] theorem resetBlock_len (held : Bool) (s : State) : (resetBlock held s).len = State.reset.len := rfl
@[simp] theorem resetBlock_unitWidth (held : Bool) (s : State) : (resetBlock held s).unitWidth = State.reset.unitWidth := rfl
@[simp] theorem resetBlock_absTime (held : Bool) (s : State) : (resetBlock held s).absTime = State.reset.absTime := rfl
@[simp] theorem resetBlock_result (held : Bool) (s : State) : (resetBlock held s).result = State.reset.result := rfl
@[simp] theorem resetBlock_outLen (held : Bool) (s : State) : (resetBlock held s).outLen = State.reset.outLen := rfl
@[simp] theorem resetBlock_pulseCount (held : Bool) (s : State) : (resetBlock held s).pulseCount = State.reset.pulseCount := rfl
@[simp] theorem resetBlock_expValid (held : Bool) (s : State) : (resetBlock held s).expValid = State.reset.expValid := rfl
@[simp] theorem resetBlock_expTime (held : Bool) (s : State) : (resetBlock held s).expTime = State.reset.expTime := rfl
@[simp] theorem resetBlock_expLen (held : Bool) (s : State) : (resetBlock held s).expLen = State.reset.expLen := rfl
@[simp] theorem resetBlock_mem (held : Bool) (s : State) : (resetBlock held s).mem = State.reset.mem := rfl
@[simp] theorem resetBlock_engine (held : Bool) (s : State) : (resetBlock held s).engine = State.reset.engine := rfl
@[simp] theorem resetBlock_resetHeld (held : Bool) (s : State) : (resetBlock held s).resetHeld = held := rfl
@[simp] theorem resetBlock_pending (held : Bool) (s : State) : (resetBlock held s).pending = s.pending := rfl
@[simp] theorem resetBlock_turns (held : Bool) (s : State) : (resetBlock held s).turns = s.turns := rfl
@[simp] theorem resetBlock_answers (held : Bool) (s : State) : (resetBlock held s).answers = s.answers := rfl
@[simp] theorem resetBlock_draws (held : Bool) (s : State) : (resetBlock held s).draws = s.draws := rfl
@[simp] theorem resetBlock_epoch (held : Bool) (s : State) : (resetBlock held s).epoch = s.epoch + 1 := rfl

/-! ### a storage write while reset is asserted (R211) -/

@[simp] theorem unsettleStorage_cmdLast (s : State) : (unsettleStorage s).cmdLast = s.cmdLast := rfl
@[simp] theorem unsettleStorage_busy (s : State) : (unsettleStorage s).busy = s.busy := rfl
@[simp] theorem unsettleStorage_done (s : State) : (unsettleStorage s).done = s.done := rfl
@[simp] theorem unsettleStorage_err (s : State) : (unsettleStorage s).err = s.err := rfl
@[simp] theorem unsettleStorage_werr (s : State) : (unsettleStorage s).werr = s.werr := rfl
@[simp] theorem unsettleStorage_errCode (s : State) : (unsettleStorage s).errCode = s.errCode := rfl
@[simp] theorem unsettleStorage_ie (s : State) : (unsettleStorage s).ie = s.ie := rfl
@[simp] theorem unsettleStorage_len (s : State) : (unsettleStorage s).len = s.len := rfl
@[simp] theorem unsettleStorage_unitWidth (s : State) : (unsettleStorage s).unitWidth = s.unitWidth := rfl
@[simp] theorem unsettleStorage_absTime (s : State) : (unsettleStorage s).absTime = s.absTime := rfl
@[simp] theorem unsettleStorage_result (s : State) : (unsettleStorage s).result = s.result := rfl
@[simp] theorem unsettleStorage_outLen (s : State) : (unsettleStorage s).outLen = s.outLen := rfl
@[simp] theorem unsettleStorage_pulseCount (s : State) : (unsettleStorage s).pulseCount = s.pulseCount := rfl
@[simp] theorem unsettleStorage_expValid (s : State) : (unsettleStorage s).expValid = s.expValid := rfl
@[simp] theorem unsettleStorage_expTime (s : State) : (unsettleStorage s).expTime = s.expTime := rfl
@[simp] theorem unsettleStorage_expLen (s : State) : (unsettleStorage s).expLen = s.expLen := rfl
@[simp] theorem unsettleStorage_mem (s : State) : (unsettleStorage s).mem = s.mem := rfl
@[simp] theorem unsettleStorage_engine (s : State) : (unsettleStorage s).engine = s.engine := rfl
@[simp] theorem unsettleStorage_resetHeld (s : State) : (unsettleStorage s).resetHeld = s.resetHeld := rfl
@[simp] theorem unsettleStorage_pending (s : State) : (unsettleStorage s).pending = s.pending := rfl
@[simp] theorem unsettleStorage_turns (s : State) : (unsettleStorage s).turns = s.turns := rfl
@[simp] theorem unsettleStorage_answers (s : State) : (unsettleStorage s).answers = s.answers := rfl
@[simp] theorem unsettleStorage_draws (s : State) : (unsettleStorage s).draws = s.draws := rfl
@[simp] theorem unsettleStorage_epoch (s : State) : (unsettleStorage s).epoch = s.epoch + 1 := rfl

/-! ### Writes and the reset input (R79, R192, R210) -/

@[simp] theorem guardedWrite_held (f : State → State) (s : State) (h : s.resetHeld = true) :
    guardedWrite f s = s := by
  simp [guardedWrite, h]

@[simp] theorem guardedWrite_busy (f : State → State) (s : State) (h : s.resetHeld = false) (hb : s.busy = true) :
    guardedWrite f s = dropWrite s := by
  simp [guardedWrite, h, hb]

@[simp] theorem guardedWrite_idle (f : State → State) (s : State) (h : s.resetHeld = false) (hb : s.busy = false) :
    guardedWrite f s = f s := by
  simp [guardedWrite, h, hb]

@[simp] theorem releaseReset_held (s : State) (h : s.resetHeld = true) : releaseReset s = resetBlock false s := by
  simp [releaseReset, h]

@[simp] theorem releaseReset_released (s : State) (h : s.resetHeld = false) : releaseReset s = s := by
  simp [releaseReset, h]

@[simp] theorem raiseCmdError_eq (c : ResultCode) (s : State) : raiseCmdError c s = complete c s := rfl

end Sys2Proof.Machine
end

