-- ==== Sys2Proof/Laws/Memory.lean ====
section
/-! SUPPORT. What a store changes and what it leaves: reading a byte, a run of bytes or a word after a store,
and that every store keeps the canonical form of storage. -/

namespace Sys2Proof.Machine

/-! ### Laying bytes out -/

theorem lookup_append (m n : Memory) (x : Nat) :
    Memory.lookup (m ++ n) x = (m.lookup x).or (n.lookup x) := by
  unfold Memory.lookup
  rw [List.find?_append]
  cases List.find? (fun c => c.1 == x) m <;> rfl

theorem lookup_filter_keep (m : Memory) (p : Nat → Bool) (x : Nat) (h : p x = true) :
    Memory.lookup (m.filter (fun c => p c.1)) x = m.lookup x := by
  unfold Memory.lookup
  rw [List.find?_filter]
  congr 2
  funext c
  by_cases hc : c.1 = x <;> simp_all

theorem lookup_filter_drop (m : Memory) (p : Nat → Bool) (x : Nat) (h : p x = false) :
    Memory.lookup (m.filter (fun c => p c.1)) x = none := by
  unfold Memory.lookup
  rw [List.find?_filter, Option.map_eq_none_iff, List.find?_eq_none]
  intro c _ hc
  simp only [beq_iff_eq, decide_eq_true_eq] at hc
  rw [hc.2, h] at hc
  exact Bool.false_ne_true hc.1

theorem lookup_block (a : Nat) (bs : List Byte) (x : Nat) :
    Memory.lookup (Memory.block a bs) x = if a ≤ x then bs[x - a]? else none := by
  induction bs generalizing a with
  | nil => simp [Memory.block, Memory.lookup]
  | cons b bs ih =>
    have hcons : Memory.lookup (Memory.block a (b :: bs)) x =
        if a = x then some b else Memory.lookup (Memory.block (a + 1) bs) x := by
      by_cases h : a = x <;> simp [Memory.block, Memory.lookup, h]
    rw [hcons, ih]
    by_cases h : a = x
    · simp [h]
    · by_cases hle : a ≤ x
      · have h1 : a + 1 ≤ x := by omega
        have h2 : x - a = (x - (a + 1)) + 1 := by omega
        simp [h, hle, h1, h2]
      · have h1 : ¬ a + 1 ≤ x := by omega
        simp [h, hle, h1]

/-- Reading a storage offset after a store: the stored byte inside the stored range, the old one outside. -/
theorem lookup_writeBytes (m : Memory) (a : Nat) (bs : List Byte) (x : Nat) :
    (m.writeBytes a bs).lookup x = if a ≤ x ∧ x < a + bs.length then bs[x - a]? else m.lookup x := by
  unfold Memory.writeBytes
  rw [lookup_append, lookup_append, lookup_block]
  by_cases h1 : x < a
  · have hk := lookup_filter_keep m (fun y => decide (y < a)) x (by simpa using h1)
    have hd := lookup_filter_drop m (fun y => decide (a + bs.length ≤ y)) x (by simp; omega)
    have hn : ¬ a ≤ x := by omega
    simp only [hk, hd, hn, false_and, if_false]
    simp
  · have hd := lookup_filter_drop m (fun y => decide (y < a)) x (by simpa using h1)
    have hle : a ≤ x := by omega
    by_cases h2 : x < a + bs.length
    · have hg : ∃ b, bs[x - a]? = some b := ⟨_, List.getElem?_eq_getElem (by omega)⟩
      obtain ⟨b, hb⟩ := hg
      simp [hd, hle, h2, hb]
    · have hk := lookup_filter_keep m (fun y => decide (a + bs.length ≤ y)) x (by simp; omega)
      have hg : bs[x - a]? = none := List.getElem?_eq_none (by omega)
      simp [hd, hle, h2, hk, hg]

theorem block_fst (a : Nat) (bs : List Byte) : (Memory.block a bs).map Prod.fst = List.range' a bs.length := by
  induction bs generalizing a with
  | nil => rfl
  | cons b bs ih => simp [Memory.block, ih, List.range'_succ]

theorem mem_block (a : Nat) (bs : List Byte) (c : Host.Cell) (h : c ∈ Memory.block a bs) :
    a ≤ c.1 ∧ c.1 < a + bs.length := by
  have h' : c.1 ∈ (Memory.block a bs).map Prod.fst := List.mem_map_of_mem h
  rw [block_fst, List.mem_range'_1] at h'
  exact h'

/-- Every store into storage keeps the canonical form. -/
theorem writeBytes_wf (m : Memory) (a : Nat) (bs : List Byte) (hm : m.wf)
    (hs : ∀ k, k < bs.length → isStorage (a + k) = true) : (m.writeBytes a bs).wf := by
  obtain ⟨hsort, hstore⟩ := hm
  have hsort' : m.Pairwise (fun c d => c.1 < d.1) := List.pairwise_map.mp hsort
  refine ⟨List.pairwise_map.mpr ?_, ?_⟩
  · unfold Memory.writeBytes
    have hblock : (Memory.block a bs).Pairwise (fun c d => c.1 < d.1) := by
      apply List.pairwise_map.mp
      rw [block_fst]
      exact List.pairwise_lt_range'
    have hleft : (m.filter (fun c => decide (c.1 < a)) ++ Memory.block a bs).Pairwise (fun c d => c.1 < d.1) := by
      refine List.pairwise_append.mpr ⟨hsort'.filter _, hblock, ?_⟩
      intro c hc d hd
      have h1 := (List.mem_filter.mp hc).2
      have h2 := mem_block a bs d hd
      simp at h1
      omega
    refine List.pairwise_append.mpr ⟨hleft, hsort'.filter _, ?_⟩
    intro c hc d hd
    have h2 := (List.mem_filter.mp hd).2
    simp at h2
    rcases List.mem_append.mp hc with h | h
    · have h1 := (List.mem_filter.mp h).2
      simp at h1
      omega
    · have h1 := mem_block a bs c h
      omega
  · intro c hc
    unfold Memory.writeBytes at hc
    rcases List.mem_append.mp hc with h | h
    · rcases List.mem_append.mp h with h | h
      · exact hstore c (List.mem_of_mem_filter h)
      · obtain ⟨h1, h2⟩ := mem_block a bs c h
        have h3 := hs (c.1 - a) (by omega)
        rwa [Nat.add_sub_cancel' h1] at h3
    · exact hstore c (List.mem_of_mem_filter h)

/-! ### Reading after a store -/

/-- A byte read depends on storage and on the reset count alone. -/
theorem byteAt_congr (s t : State) (a : Nat) (hm : s.mem = t.mem) (he : s.epoch = t.epoch) :
    byteAt s a = byteAt t a := by
  simp [byteAt, hm, he]

theorem byteAt_storeBytes_outside (a : Nat) (bs : List Byte) (s : State) (x : Nat)
    (h : x < a ∨ a + bs.length ≤ x) : byteAt (storeBytes a bs s) x = byteAt s x := by
  have hn : ¬ (a ≤ x ∧ x < a + bs.length) := by omega
  simp [byteAt, lookup_writeBytes, hn]

theorem byteAt_storeBytes_inside (a : Nat) (bs : List Byte) (s : State) (k : Nat) (h : k < bs.length) :
    byteAt (storeBytes a bs s) (a + k) = bs[k] := by
  have h1 : a ≤ a + k ∧ a + k < a + bs.length := by omega
  simp [byteAt, lookup_writeBytes, h]

theorem bytesAt_length (s : State) (a n : Nat) : (bytesAt s a n).length = n := by simp [bytesAt]

theorem bytesAt_congr (s t : State) (a n : Nat) (h : ∀ k, k < n → byteAt s (a + k) = byteAt t (a + k)) :
    bytesAt s a n = bytesAt t a n :=
  List.map_congr_left (fun k hk => h k (List.mem_range.mp hk))

theorem bytesAt_storeBytes (a : Nat) (bs : List Byte) (s : State) :
    bytesAt (storeBytes a bs s) a bs.length = bs := by
  apply List.ext_getElem (bytesAt_length _ _ _)
  intro k h1 h2
  simpa [bytesAt] using byteAt_storeBytes_inside a bs s k h2

theorem bytesAt_storeBytes_outside (a : Nat) (bs : List Byte) (s : State) (x n : Nat)
    (h : x + n ≤ a ∨ a + bs.length ≤ x) : bytesAt (storeBytes a bs s) x n = bytesAt s x n :=
  bytesAt_congr _ _ _ _ (fun _ _ => byteAt_storeBytes_outside _ _ _ _ (by omega))

theorem wordAt_congr (s t : State) (a : Nat) (h : ∀ k, k < 4 → byteAt s (a + k) = byteAt t (a + k)) :
    wordAt s a = wordAt t a := by
  have h0 := h 0 (by omega)
  have h1 := h 1 (by omega)
  have h2 := h 2 (by omega)
  have h3 := h 3 (by omega)
  simp only [Nat.add_zero] at h0
  simp [wordAt, h0, h1, h2, h3]

/-- The bytes of a word, joined in the order of R70, are the word. -/
theorem wordBytes_join (v : Word) :
    (v.extractLsb' 24 8 ++ v.extractLsb' 16 8 ++ v.extractLsb' 8 8 ++ v.extractLsb' 0 8 : BitVec 32) = v := by
  ext i hi
  simp only [BitVec.getElem_append, BitVec.getElem_extractLsb']
  rw [← BitVec.getLsbD_eq_getElem hi]
  split
  · simp
  · split
    · congr 1
      omega
    · split
      · congr 1
        omega
      · congr 1
        omega

@[simp] theorem wordBytes_length (v : Word) : (wordBytes v).length = 4 := rfl

theorem wordAt_eq_of_bytes (s : State) (a : Nat) (v : Word)
    (h : ∀ k, (hk : k < 4) → byteAt s (a + k) = (wordBytes v)[k]'hk) : wordAt s a = v := by
  have h0 := h 0 (by omega)
  have h1 := h 1 (by omega)
  have h2 := h 2 (by omega)
  have h3 := h 3 (by omega)
  simp only [Nat.add_zero] at h0
  rw [wordAt, h0, h1, h2, h3]
  exact wordBytes_join v

theorem pulseBytes_length (d : List Nat) : (pulseBytes d).length = 4 * d.length := by
  induction d with
  | nil => rfl
  | cons x d ih => simp [pulseBytes] at ih ⊢; omega

theorem pulseBytes_getElem (d : List Nat) (j k : Nat) (hj : j < d.length) (hk : k < 4)
    (h : 4 * j + k < (pulseBytes d).length) :
    (pulseBytes d)[4 * j + k] = (wordBytes (BitVec.ofNat 32 d[j]))[k]'hk := by
  induction d generalizing j with
  | nil => simp at hj
  | cons x d ih =>
    have hcons : pulseBytes (x :: d) = wordBytes (BitVec.ofNat 32 x) ++ pulseBytes d := rfl
    cases j with
    | zero =>
      simp only [hcons, Nat.mul_zero, Nat.zero_add, List.getElem_cons_zero]
      exact List.getElem_append_left (by simpa using hk)
    | succ j =>
      have hlen := pulseBytes_length d
      have hj' : j < d.length := by simpa using hj
      simp only [hcons, List.getElem_cons_succ]
      rw [List.getElem_append_right (by simp; omega)]
      have hidx : 4 * (j + 1) + k - (wordBytes (BitVec.ofNat 32 x)).length = 4 * j + k := by simp; omega
      simp only [hidx]
      exact ih j hj' (by omega)

/-- Entry `j` of PULSE_BUF after a list of durations is stored is the `j`-th duration (R157). -/
theorem pulseAt_storeBytes (d : List Nat) (s : State) (j : Nat) (hj : j < d.length) :
    pulseAt (storeBytes pulseBufBase (pulseBytes d) s) j = BitVec.ofNat 32 d[j] := by
  have hlen := pulseBytes_length d
  apply wordAt_eq_of_bytes
  intro k hk
  rw [Nat.add_assoc, byteAt_storeBytes_inside _ _ _ _ (by omega)]
  exact pulseBytes_getElem d j k hj hk (by omega)

theorem pulsesAt_storeBytes (d : List Nat) (s : State) :
    pulsesAt (storeBytes pulseBufBase (pulseBytes d) s) d.length = d.map (BitVec.ofNat 32) := by
  apply List.ext_getElem (by simp [pulsesAt])
  intro j h1 h2
  have hj : j < d.length := by simpa using h2
  simpa [pulsesAt] using pulseAt_storeBytes d s j hj

end Sys2Proof.Machine
end

