-- ==== Sys2Proof/Laws/Operations.lean ====
section
/-! SUPPORT. What an execute step can do, said once for all operations: its effect as a function of the operation,
the two ways it can end, the fields an effect leaves alone, and the storage it leaves alone. -/

namespace Sys2Proof.Machine

open Sys2Proof.Safety

/-- The effect of an operation whose check passes, under a configuration (R116, R8). -/
def effect (c : Config) (i : Instr) : State → State :=
  match i with
  | .nop => id
  | .crc => crcEffect c
  | .frame => frameEffect c
  | .encode => encodeEffect c
  | .frameEnc => frameEncEffect c
  | .expand => expandEffect c

/-- Every execute step has the shape of R113. -/
theorem execWith_eq_executeStep (c : Config) (i : Instr) (s : State) :
    execWith c i s = executeStep i (effect c i) s := by
  cases i <;> rfl

/-- Every arm of exec is that execute step under this hardware's configuration. -/
theorem exec_eq_executeStep (i : Instr) (s : State) : exec i s = executeStep i (effect Config.hardware i) s := by
  cases i <;> rfl

theorem lenLegal_eq (i : Instr) (n : Nat) : lenLegal i n = lenInRange i n := by
  cases i <;> simp [lenLegal, lenLimits, lenInRange, Config.inBufBytes, Config.maxPayload, Config.maxRawExpand]

theorem readsUnitWidth_eq (i : Instr) : readsUnitWidth i = needsUnitWidth i := by cases i <;> rfl

/-- The check's result, as the code it reports. -/
theorem checkOperands_bits (i : Instr) (s : State) : (checkOperands i s).bits = codeOf i s := by
  have hw : (s.unitWidth.toNat == 0) = decide (s.unitWidth = 0) := by
    by_cases h : s.unitWidth = 0 <;> simp_all [← BitVec.toNat_inj]
  unfold checkOperands codeOf
  rw [lenLegal_eq, readsUnitWidth_eq]
  simp only [lenOperand, unitWidthOperand, hw]
  cases lenInRange i s.len.toNat <;> cases needsUnitWidth i <;> by_cases h : s.unitWidth = 0#16 <;>
    simp [ResultCode.bits, h]

/-- An execute step whose checks pass: the effect, then complete(OK). -/
theorem executeStep_ok (i : Instr) (f : State → State) (s : State) (h : codeOf i s = 0) :
    executeStep i f s = .next (complete .ok (f s)) := by
  have hb := checkOperands_bits i s
  rw [h] at hb
  unfold executeStep
  cases hc : checkOperands i s <;> simp_all [ResultCode.bits]

/-- An execute step with a failing check: its code and nothing else. -/
theorem executeStep_rejected (i : Instr) (f : State → State) (s : State) (h : codeOf i s ≠ 0) :
    executeStep i f s = .next (rejectedWith (codeOf i s) s) := by
  have hb := checkOperands_bits i s
  unfold executeStep
  cases hc : checkOperands i s <;> simp_all [ResultCode.bits, rejectedWith, complete]

theorem execWith_ok (c : Config) (i : Instr) (s : State) (h : codeOf i s = 0) :
    execWith c i s = .next (complete .ok (effect c i s)) := by
  rw [execWith_eq_executeStep, executeStep_ok i _ s h]

theorem execWith_rejected (c : Config) (i : Instr) (s : State) (h : codeOf i s ≠ 0) :
    execWith c i s = .next (rejectedWith (codeOf i s) s) := by
  rw [execWith_eq_executeStep, executeStep_rejected i _ s h]

theorem exec_ok (i : Instr) (s : State) (h : codeOf i s = 0) :
    exec i s = .next (complete .ok (effect Config.hardware i s)) := by
  rw [exec_eq_executeStep, executeStep_ok i _ s h]

theorem exec_rejected (i : Instr) (s : State) (h : codeOf i s ≠ 0) :
    exec i s = .next (rejectedWith (codeOf i s) s) := by
  rw [exec_eq_executeStep, executeStep_rejected i _ s h]

/-- Everything an execute step can answer, under any configuration. -/
theorem execWith_cases (c : Config) (i : Instr) (s t : State) (h : execWith c i s = .next t) :
    (codeOf i s = 0 ∧ t = complete .ok (effect c i s)) ∨ (codeOf i s ≠ 0 ∧ t = rejectedWith (codeOf i s) s) := by
  by_cases hc : codeOf i s = 0
  · rw [execWith_ok c i s hc] at h
    cases h
    exact .inl ⟨hc, rfl⟩
  · rw [execWith_rejected c i s hc] at h
    cases h
    exact .inr ⟨hc, rfl⟩

/-- Everything an execute step of this hardware can answer. -/
theorem exec_cases (i : Instr) (s t : State) (h : exec i s = .next t) :
    (codeOf i s = 0 ∧ t = complete .ok (effect Config.hardware i s)) ∨
      (codeOf i s ≠ 0 ∧ t = rejectedWith (codeOf i s) s) := by
  rw [exec_eq_executeStep, ← execWith_eq_executeStep] at h
  exact execWith_cases Config.hardware i s t h

/-! ### Fields an effect leaves alone -/

/-- Storing one slot, and so storing all, changes storage alone. -/
theorem storeSlots_eq (c : Config) (t : Nat) (r : List Byte) (s : State) :
    storeSlots c t r s = { s with mem := (storeSlots c t r s).mem } := by
  unfold storeSlots
  generalize List.finRange 16 = l
  induction l generalizing s with
  | nil => rfl
  | cons i l ih =>
    rw [List.foldl_cons, ih]
    unfold storeSlot
    split <;> rfl

/-- An effect changes the result registers, the EXP registers and storage, and no other field (R116). -/
theorem effect_eq (c : Config) (i : Instr) (s : State) :
    effect c i s = { s with
      result := (effect c i s).result, outLen := (effect c i s).outLen, pulseCount := (effect c i s).pulseCount
      expValid := (effect c i s).expValid, expTime := (effect c i s).expTime, expLen := (effect c i s).expLen
      mem := (effect c i s).mem } := by
  cases i <;> first | rfl | skip
  simp only [effect, expandEffect]
  rw [storeSlots_eq]

/-! ### Storage an effect leaves alone -/

theorem storeSlot_byteAt (c : Config) (t : Nat) (r : List Byte) (s : State) (i : Fin 16) (a : Nat)
    (h : a < expFrameBase i.val ∨ expFrameBase i.val + (r.length + 3) ≤ a ∨ bucketValid t i.val = false) :
    byteAt (storeSlot c t r s i) a = byteAt s a := by
  unfold storeSlot
  split
  · refine byteAt_storeBytes_outside _ _ _ _ ?_
    simp only [slotFrame, frame_length, List.length_cons]
    rcases h with h | h | h
    · exact .inl h
    · exact .inr h
    · simp_all
  · rfl

theorem foldl_storeSlot_byteAt (c : Config) (t : Nat) (r : List Byte) (l : List (Fin 16)) (s : State) (a : Nat)
    (h : ∀ i ∈ l, a < expFrameBase i.val ∨ expFrameBase i.val + (r.length + 3) ≤ a ∨ bucketValid t i.val = false) :
    byteAt (l.foldl (storeSlot c t r) s) a = byteAt s a := by
  induction l generalizing s with
  | nil => rfl
  | cons i l ih =>
    rw [List.foldl_cons, ih _ (fun j hj => h j (List.mem_cons_of_mem _ hj))]
    exact storeSlot_byteAt c t r s i a (h i List.mem_cons_self)

/-- A byte no valid slot's frame covers is as it was. -/
theorem storeSlots_byteAt_outside (c : Config) (t : Nat) (r : List Byte) (s : State) (a : Nat)
    (h : ∀ i : Fin 16, a < expFrameBase i.val ∨ expFrameBase i.val + (r.length + 3) ≤ a ∨
      bucketValid t i.val = false) :
    byteAt (storeSlots c t r s) a = byteAt s a :=
  foldl_storeSlot_byteAt c t r _ s a (fun i _ => h i)

/-- A valid slot holds its frame, for a raw command that fits (R173). -/
theorem storeSlots_bytesAt (c : Config) (t : Nat) (r : List Byte) (s : State) (i : Fin 16) (hr : r.length ≤ 111)
    (hv : bucketValid t i.val = true) :
    bytesAt (storeSlots c t r s) (expFrameBase i.val) (r.length + 3) =
      slotFrame c.crcTable r i := by
  have hlen : (slotFrame c.crcTable r i).length = r.length + 3 := by
    simp [slotFrame, frame_length]
  obtain ⟨l₁, l₂, hl⟩ := List.append_of_mem (List.mem_finRange i)
  have hnd := List.nodup_finRange 16
  rw [hl] at hnd
  have hnot : ∀ j ∈ l₂, j ≠ i := by
    intro j hj hji
    subst hji
    exact (List.nodup_cons.mp (List.nodup_append.mp hnd).2.1).1 hj
  unfold storeSlots
  rw [hl, List.foldl_append, List.foldl_cons]
  generalize List.foldl (storeSlot c t r) s l₁ = u
  have hafter : bytesAt (List.foldl (storeSlot c t r) (storeSlot c t r u i) l₂) (expFrameBase i.val) (r.length + 3) =
      bytesAt (storeSlot c t r u i) (expFrameBase i.val) (r.length + 3) := by
    refine bytesAt_congr _ _ _ _ (fun k hk => foldl_storeSlot_byteAt _ _ _ _ _ _ (fun j hj => ?_))
    have hne : j.val ≠ i.val := fun h => hnot j hj (Fin.ext h)
    simp only [expFrameBase]
    omega
  rw [hafter, storeSlot, if_pos hv]
  have h := bytesAt_storeBytes (expFrameBase i.val) (slotFrame c.crcTable r i) u
  rwa [hlen] at h

/-- An effect leaves every byte below OUT_BUF, and so all of IN_BUF, as it was (R116). -/
theorem effect_byteAt_low (c : Config) (i : Instr) (s : State) (a : Nat) (h : a < 0x180) :
    byteAt (effect c i s) a = byteAt s a := by
  have hout : ∀ (f : List Byte) (u : State), byteAt (storeFrame f u) a = byteAt u a := fun f u =>
    byteAt_storeBytes_outside outBufBase f u a (.inl (by simpa [outBufBase] using h))
  have hpulse : ∀ (d : List Nat) (u : State), byteAt (storePulses d u) a = byteAt u a := fun d u =>
    byteAt_storeBytes_outside pulseBufBase (pulseBytes d) u a (.inl (by simp only [pulseBufBase]; omega))
  cases i with
  | nop => rfl
  | crc => rfl
  | frame => exact hout _ _
  | encode => exact hpulse _ _
  | frameEnc => exact (hpulse _ _).trans (hout _ _)
  | expand =>
    exact storeSlots_byteAt_outside _ _ _ s a (fun i => .inl (by simp only [expFrameBase]; omega))

/-! ### What the stores of the operations hold -/

/-- Completing an operation leaves storage alone. -/
theorem complete_byteAt (c : ResultCode) (s : State) (a : Nat) : byteAt (complete c s) a = byteAt s a := rfl

theorem complete_bytesAt (c : ResultCode) (s : State) (a n : Nat) : bytesAt (complete c s) a n = bytesAt s a n := rfl

theorem complete_pulsesAt (c : ResultCode) (s : State) (n : Nat) : pulsesAt (complete c s) n = pulsesAt s n := rfl

theorem frameOf_length (c : Config) (p : List Byte) : (frameOf c p).length = p.length + 2 := frame_length _ _

/-- OUT_BUF holds the frame stored in it. -/
theorem storeFrame_bytesAt (f : List Byte) (s : State) : bytesAt (storeFrame f s) outBufBase f.length = f :=
  bytesAt_storeBytes outBufBase f s

theorem storeFrame_byteAt (f : List Byte) (s : State) (a : Nat)
    (h : a < outBufBase ∨ outBufBase + f.length ≤ a) : byteAt (storeFrame f s) a = byteAt s a :=
  byteAt_storeBytes_outside outBufBase f s a h

/-- PULSE_BUF holds the durations stored in it. -/
theorem storePulses_pulsesAt (d : List Nat) (s : State) :
    pulsesAt (storePulses d s) d.length = d.map (BitVec.ofNat 32) :=
  pulsesAt_storeBytes d s

theorem storePulses_byteAt (d : List Nat) (s : State) (a : Nat)
    (h : a < pulseBufBase ∨ pulseBufBase + 4 * d.length ≤ a) : byteAt (storePulses d s) a = byteAt s a :=
  byteAt_storeBytes_outside pulseBufBase (pulseBytes d) s a (by rwa [pulseBytes_length])

theorem storePulses_bytesAt (d : List Nat) (s : State) (a n : Nat) (h : a + n ≤ pulseBufBase) :
    bytesAt (storePulses d s) a n = bytesAt s a n :=
  bytesAt_congr _ _ _ _ (fun _ _ => storePulses_byteAt _ _ _ (.inl (by omega)))

/-- The bytes EXPAND leaves are those its slots hold. -/
theorem expandEffect_byteAt (c : Config) (s : State) (a : Nat) :
    byteAt (expandEffect c s) a = byteAt (storeSlots c s.absTime.toNat (inputBytes s) s) a := rfl

theorem expandEffect_bytesAt (c : Config) (s : State) (a n : Nat) :
    bytesAt (expandEffect c s) a n = bytesAt (storeSlots c s.absTime.toNat (inputBytes s) s) a n := rfl

theorem expandEffect_expTime (c : Config) (s : State) (i : Fin 16) :
    (expandEffect c s).expTime[i] = slotTime s.absTime.toNat i := by
  simp [expandEffect, absTimeOperand]

theorem expandEffect_expLen (c : Config) (s : State) (i : Fin 16) :
    (expandEffect c s).expLen[i] = slotLen s.absTime.toNat s.len.toNat i := by
  simp [expandEffect, absTimeOperand, lenOperand]

/-! ### Canonical storage -/

theorem storeBytes_wf (a : Nat) (bs : List Byte) (s : State) (hm : s.mem.wf)
    (hs : ∀ k, k < bs.length → isStorage (a + k) = true) : (storeBytes a bs s).mem.wf :=
  writeBytes_wf s.mem a bs hm hs

theorem isStorage_iff (a : Nat) :
    isStorage a = true ↔ (0x100 ≤ a ∧ a < 0x200) ∨ (0x800 ≤ a ∧ a < 0x1000) ∨ (0x2000 ≤ a ∧ a < 0x3400) := by
  simp only [isStorage, Bool.or_eq_true, Bool.and_eq_true, decide_eq_true_eq, or_assoc]

theorem isStorage_outBuf (k : Nat) (h : k < 0x80) : isStorage (outBufBase + k) = true := by
  rw [isStorage_iff]
  simp only [outBufBase]
  omega

theorem isStorage_inBuf (k : Nat) (h : k < 0x80) : isStorage (inBufBase + k) = true := by
  rw [isStorage_iff]
  simp only [inBufBase]
  omega

theorem isStorage_expFrame (i : Fin 16) (k : Nat) (h : k < 0x80) : isStorage (expFrameBase i.val + k) = true := by
  rw [isStorage_iff]
  simp only [expFrameBase]
  omega

theorem isStorage_pulseBuf (k : Nat) (h : k < 0x1400) : isStorage (pulseBufBase + k) = true := by
  rw [isStorage_iff]
  simp only [pulseBufBase]
  omega

theorem storeFrame_wf (c : Config) (p : List Byte) (s : State) (hm : s.mem.wf) (hp : p.length ≤ 126) :
    (storeFrame (frameOf c p) s).mem.wf := by
  refine storeBytes_wf _ _ s hm (fun k hk => isStorage_outBuf k ?_)
  rw [frameOf_length] at hk
  omega

theorem pulsesOf_length_le (c : Config) (bs : List Byte) (w : Nat) :
    (pulsesOf c bs w).length ≤ 9 * bs.length + (bs.length - 1) + 1 := by
  have h := pulseEncode_length_le c.stopEachByte bs w
  rw [symbols_length] at h
  unfold pulsesOf
  split at h <;> omega

theorem storePulses_wf (c : Config) (bs : List Byte) (w : Nat) (s : State) (hm : s.mem.wf) (hb : bs.length ≤ 128) :
    (storePulses (pulsesOf c bs w) s).mem.wf := by
  refine storeBytes_wf _ _ s hm (fun k hk => isStorage_pulseBuf k ?_)
  have h := pulsesOf_length_le c bs w
  rw [pulseBytes_length] at hk
  omega

theorem storeSlots_wf (c : Config) (t : Nat) (r : List Byte) (s : State) (hm : s.mem.wf) (hr : r.length ≤ 125) :
    (storeSlots c t r s).mem.wf := by
  unfold storeSlots
  generalize List.finRange 16 = l
  induction l generalizing s with
  | nil => exact hm
  | cons i l ih =>
    rw [List.foldl_cons]
    apply ih
    unfold storeSlot
    split
    · refine storeBytes_wf _ _ s hm (fun k hk => isStorage_expFrame i k ?_)
      simp only [slotFrame, frame_length, List.length_cons] at hk
      omega
    · exact hm

theorem inputBytes_length (s : State) : (inputBytes s).length = s.len.toNat := bytesAt_length _ _ _

theorem inputBytes_eq (s : State) : inputBytes s = inBytes s s.len.toNat := rfl

/-- LEN of an operation whose check passes is in its range. -/
theorem lenInRange_of_code (i : Instr) (s : State) (h : codeOf i s = 0) : lenInRange i s.len.toNat = true := by
  by_contra hn
  rw [Bool.not_eq_true] at hn
  simp [codeOf, hn] at h

/-- Every operation whose check passes keeps storage canonical. -/
theorem effect_wf (c : Config) (i : Instr) (s : State) (hm : s.mem.wf) (hc : codeOf i s = 0) : (effect c i s).mem.wf := by
  have hlen := lenInRange_of_code i s hc
  have hin := inputBytes_length s
  cases i with
  | nop => exact hm
  | crc => exact hm
  | frame =>
    simp only [lenInRange, decide_eq_true_eq] at hlen
    exact storeFrame_wf _ _ s hm (by omega)
  | encode =>
    simp only [lenInRange, decide_eq_true_eq] at hlen
    exact storePulses_wf _ _ _ s hm (by omega)
  | frameEnc =>
    simp only [lenInRange, decide_eq_true_eq] at hlen
    refine storePulses_wf _ _ _ _ (storeFrame_wf _ _ s hm (by omega)) ?_
    rw [frameOf_length]
    omega
  | expand =>
    simp only [lenInRange, decide_eq_true_eq] at hlen
    exact storeSlots_wf _ _ _ s hm (by omega)

end Sys2Proof.Machine
end

