-- ==== Sys2Proof/Laws/PerInstr.lean ====
section
/-! SUPPORT. The per-instruction statements about an instruction as syntax: its word is legal, carries its code
in OP, and decodes back to it. -/

namespace Sys2Proof.Laws.RoundTrip

/-- The word of `i` passes both checks of R92, has the code of `i` in OP, and decodes to `i`. -/
def Statement (i : Instr) : Prop :=
  legalWord (encode i) = true ∧ commandOp (encode i) = opcode i ∧ decode (encode i) = .ok i

theorem nop : Statement .nop := by unfold Statement; decide
theorem crc : Statement .crc := by unfold Statement; decide
theorem frame : Statement .frame := by unfold Statement; decide
theorem encode : Statement .encode := by unfold Statement; decide
theorem frameEnc : Statement .frameEnc := by unfold Statement; decide
theorem expand : Statement .expand := by unfold Statement; decide

end Sys2Proof.Laws.RoundTrip
end

