-- ==== Sys2Proof/Laws/Window.lean ====
section
/-! SUPPORT. The register map read backwards (which offset names which location), what a host write can do, and
what one step can do. -/

namespace Sys2Proof.Machine

open Sys2Proof.Safety

/-! ### The register map -/

/-- The offset of a location that is not reserved (10_state.md §2); 0x3FFC stands for the reserved ones. -/
def locOffset (l : Loc) : Nat :=
  match l with
  | .id => 0x000
  | .cmd => 0x004
  | .status => 0x008
  | .irqEn => 0x00C
  | .len => 0x010
  | .unitWidth => 0x014
  | .absTime => 0x018
  | .result => 0x01C
  | .outLen => 0x020
  | .pulseCount => 0x024
  | .expValid => 0x028
  | .expTime i => 0x040 + 4 * i.val
  | .expLen i => 0x080 + 4 * i.val
  | .inBuf m => 0x100 + 4 * m.val
  | .outBuf m => 0x180 + 4 * m.val
  | .expFrame i m => 0x800 + 0x80 * i.val + 4 * m.val
  | .pulseBuf j => 0x2000 + 4 * j.val
  | .reserved => 0x3FFC

/-- The offsets R73 reserves. -/
def reservedOffset (w : Nat) : Prop :=
  (0x02C ≤ w ∧ w ≤ 0x03C) ∨ (0x0C0 ≤ w ∧ w ≤ 0x0FC) ∨ (0x200 ≤ w ∧ w ≤ 0x7FF) ∨ (0x1000 ≤ w ∧ w ≤ 0x1FFF) ∨
    (0x3400 ≤ w ∧ w ≤ 0x3FFF)

/-- Ignoring bits 1:0 is rounding down to a multiple of 4 (R75). -/
theorem wordOffset_eq (off : Offset) : wordOffset off = off.toNat / 4 * 4 := by
  have h : off &&& (0x3FFC : Offset) = (off >>> 2) <<< 2 := by
    apply BitVec.eq_of_getLsbD_eq
    intro i hi
    rw [BitVec.getLsbD_and, BitVec.getLsbD_shiftLeft, BitVec.getLsbD_ushiftRight]
    interval_cases i <;> simp
  have hlt := off.isLt
  unfold wordOffset
  erw [h]
  rw [BitVec.toNat_shiftLeft, BitVec.toNat_ushiftRight, Nat.shiftRight_eq_div_pow, Nat.shiftLeft_eq]
  omega

theorem wordOffset_mod (off : Offset) : wordOffset off % 4 = 0 := by
  rw [wordOffset_eq]
  exact Nat.mul_mod_left _ _

theorem wordOffset_lt (off : Offset) : wordOffset off < 0x4000 := (off &&& 0x3FFC).isLt

/-- Masking an offset twice is masking it once (R75). -/
theorem wordOffset_masked (off : Offset) : wordOffset (off &&& 0x3FFC) = wordOffset off := by
  simp only [wordOffset, BitVec.and_assoc, BitVec.and_self]

theorem locate_masked (off : Offset) : locate (off &&& 0x3FFC) = locate off := by
  simp only [locate, wordOffset_masked]

/-- What an offset names stands at that offset; a reserved location stands in a reserved range. -/
theorem locate_spec (off : Offset) :
    (locate off = .reserved ∧ reservedOffset (wordOffset off)) ∨
      (locate off ≠ .reserved ∧ wordOffset off = locOffset (locate off)) := by
  have hmod := wordOffset_mod off
  have hlt := wordOffset_lt off
  unfold locate locAt reservedOffset
  generalize wordOffset off = w at hmod hlt
  by_cases hw : w < 0x040
  · obtain ⟨q, rfl⟩ : ∃ q, w = 4 * q := ⟨w / 4, by omega⟩
    have hq : q < 16 := by omega
    clear hmod hlt hw
    interval_cases q <;> simp [locOffset]
  · have hne : ∀ n, n < 0x040 → w ≠ n := fun n hn h => hw (h ▸ hn)
    simp only [hne 0x000 (by omega), hne 0x004 (by omega), hne 0x008 (by omega), hne 0x00C (by omega),
      hne 0x010 (by omega), hne 0x014 (by omega), hne 0x018 (by omega), hne 0x01C (by omega),
      hne 0x020 (by omega), hne 0x024 (by omega), hne 0x028 (by omega), hw, if_false]
    clear hne
    split_ifs
    all_goals
      first
        | (refine .inr ⟨Loc.noConfusion, ?_⟩; simp only [locOffset, Fin.val_ofNat]; omega)
        | (refine .inl ⟨rfl, ?_⟩; omega)

theorem locAt_eq (l : Loc) (hl : l ≠ .reserved) (w : Nat) (h : w = locOffset l) : locAt w = l := by
  cases l
  case reserved => exact absurd rfl hl
  all_goals
    dsimp only [locOffset] at h
    unfold locAt
    repeat rw [if_neg (by omega)]
    rw [if_pos (by omega)]
    try
      congr 1 <;> apply Fin.ext <;> simp only [Fin.val_ofNat] <;> omega

/-- The location at its own offset. -/
theorem locate_of_offset (off : Offset) (l : Loc) (hl : l ≠ .reserved) (h : wordOffset off = locOffset l) :
    locate off = l :=
  locAt_eq l hl _ h

theorem locate_reserved (off : Offset) (h : reservedOffset (wordOffset off)) : locate off = .reserved := by
  rcases locate_spec off with ⟨hr, _⟩ | ⟨hn, ho⟩
  · exact hr
  · exfalso
    unfold reservedOffset at h
    rw [ho] at h
    clear ho
    revert h hn
    generalize locate off = l
    intro h hn
    cases l <;> first | exact hn rfl | (simp only [locOffset] at h; omega)

/-- An offset below 0x4000 that is a multiple of 4 names the word at it. -/
theorem wordOffset_ofNat (n : Nat) (h : n < 0x4000) (h4 : n % 4 = 0) : wordOffset (BitVec.ofNat 14 n) = n := by
  rw [wordOffset_eq, BitVec.toNat_ofNat, Nat.mod_eq_of_lt h]
  omega

/-! ### Host writes -/

/-- Everything a MemWrite can do while reset is not asserted: nothing, one control or operand register, one word of
IN_BUF, or a dropped write (R79). -/
theorem memWrite_cases (off : Offset) (v : Word) (s : State) (h : s.resetHeld = false) :
    (locate off = .cmd ∧ s.busy = false ∧ memWrite off v s = issue v s) ∨
    (locate off = .status ∧ memWrite off v s = clearFlags v s) ∨
    (locate off = .irqEn ∧ memWrite off v s = { s with ie := v.getLsbD 0 }) ∨
    (locate off = .len ∧ s.busy = false ∧ memWrite off v s = { s with len := v.extractLsb' 0 8 }) ∨
    (locate off = .unitWidth ∧ s.busy = false ∧ memWrite off v s = { s with unitWidth := v.extractLsb' 0 16 }) ∨
    (locate off = .absTime ∧ s.busy = false ∧ memWrite off v s = { s with absTime := v }) ∨
    (∃ m, locate off = .inBuf m ∧ s.busy = false ∧
      memWrite off v s = storeBytes (inBufBase + 4 * m.val) (wordBytes v) s) ∨
    (droppedWhileBusy (locate off) = true ∧ s.busy = true ∧ memWrite off v s = dropWrite s) ∨
    (droppedWhileBusy (locate off) = false ∧ locate off ≠ .status ∧ locate off ≠ .irqEn ∧ memWrite off v s = s) := by
  unfold memWrite
  cases locate off <;> cases hb : s.busy <;> simp [writeLoc, droppedWhileBusy, h, hb]

/-- Everything a MemWrite can do while reset is asserted: it takes no hold in any register, and no storage byte counts as
written (R210). -/
theorem memWrite_held (off : Offset) (v : Word) (s : State) (h : s.resetHeld = true) :
    memWrite off v s = s ∨ (locate off = .status ∧ memWrite off v s = clearFlags v s) ∨
      memWrite off v s = unsettleStorage s := by
  unfold memWrite
  cases locate off <;> simp [writeLoc, h]

/-- What a MemWrite does to the STATUS bits, IE and the level of the reset input, by the location written (R79). -/
theorem writeLoc_bits (l : Loc) (v : Word) (s : State) :
    (writeLoc l v s).busy = (s.busy || (decide (l = .cmd) && !s.resetHeld)) ∧
    (writeLoc l v s).done =
      (s.done && !(decide (l = .cmd) && !s.busy && !s.resetHeld) && !(decide (l = .status) && v.getLsbD 1)) ∧
    (writeLoc l v s).err = (s.err && !(decide (l = .status) && v.getLsbD 2)) ∧
    (writeLoc l v s).werr =
      ((s.werr && !(decide (l = .status) && v.getLsbD 3)) || (droppedWhileBusy l && s.busy && !s.resetHeld)) ∧
    (writeLoc l v s).ie = (if l = .irqEn ∧ s.resetHeld = false then v.getLsbD 0 else s.ie) ∧
    (writeLoc l v s).resetHeld = s.resetHeld := by
  cases l <;> cases hr : s.resetHeld <;> cases hb : s.busy <;> simp [writeLoc, droppedWhileBusy, hr, hb]

/-- While reset is not asserted, a MemWrite leaves every output, every byte above IN_BUF and all that is not the block's
as it was; while BUSY is 1 it leaves the operands, CMD_LAST and ENGINE too. -/
theorem writeLoc_keeps (l : Loc) (v : Word) (s : State) (h : s.resetHeld = false) :
    SameOutputs s (writeLoc l v s) ∧ SameWorld s (writeLoc l v s) ∧ (writeLoc l v s).errCode = s.errCode ∧
    (s.busy = true →
      SameOperands s (writeLoc l v s) ∧ (writeLoc l v s).cmdLast = s.cmdLast ∧
        (writeLoc l v s).engine = s.engine) := by
  have hbytes : ∀ (m : Fin 32) (a : Nat), 0x180 ≤ a →
      byteAt (storeBytes (inBufBase + 4 * m.val) (wordBytes v) s) a = byteAt s a := fun m a ha =>
    byteAt_storeBytes_outside _ _ _ _ (.inr (by simp only [inBufBase, wordBytes_length]; omega))
  have hsame : ∀ t : State, t.mem = s.mem → t.epoch = s.epoch → ∀ a, byteAt t a = byteAt s a :=
    fun t hm he a => byteAt_congr t s a hm he
  unfold SameOutputs SameWorld SameOperands
  cases l <;> cases hb : s.busy <;> simp [writeLoc, h, hb] <;>
    first | exact fun a ha => hbytes _ a ha | exact fun a _ => hsame _ rfl rfl a |
      exact ⟨fun a _ => hsame _ rfl rfl a, fun a _ _ => hsame _ rfl rfl a⟩

/-- Whatever a MemWrite does, it leaves the lists of the outside world and the draws as they were. -/
theorem writeLoc_lists (l : Loc) (v : Word) (s : State) :
    (writeLoc l v s).pending = s.pending ∧ (writeLoc l v s).turns = s.turns ∧
      (writeLoc l v s).answers = s.answers ∧ (writeLoc l v s).draws = s.draws := by
  cases l <;> cases hr : s.resetHeld <;> cases hb : s.busy <;> simp [writeLoc, hr, hb]

/-! ### Host reads and inputs -/

/-- A location that is no output reads its value whatever BUSY is (R78). -/
theorem memRead_of_not_output (off : Offset) (s : State) (h : isOutput (locate off) = false) :
    memRead off s = locValue (locate off) s := by
  rw [memRead, readUnspecified, h, Bool.and_false, if_neg Bool.false_ne_true]

/-- With BUSY 0 every location reads its value (R77). -/
theorem memRead_of_idle (off : Offset) (s : State) (h : s.busy = false) :
    memRead off s = locValue (locate off) s := by
  rw [memRead, readUnspecified, h, Bool.false_and, if_neg Bool.false_ne_true]

/-- A read that is answered changes the model's record alone. -/
theorem hostRead_next (off : Offset) (s t : State) (h : hostRead off s = .next t) : t = noteRead off s := by
  unfold hostRead at h
  split at h
  · cases h
  · cases h
    rfl

/-- Everything an input that is answered can do: one MemWrite, nothing to the block, or reset. -/
theorem applyInput_cases (x : Input) (s t : State) (h : applyInput x s = .next t) :
    (∃ off v, inputWrite x = some (off, v) ∧ t = memWrite off v s) ∨
    (resetsBlock x s = false ∧ (∀ off v, inputWrite x ≠ some (off, v)) ∧
      t = { s with pending := t.pending, answers := t.answers, draws := t.draws }) ∨
    (resetsBlock x s = true ∧ ∃ held, t = resetBlock held s) := by
  cases x with
  | wr off v =>
    cases h
    exact .inl ⟨off, v, rfl, rfl⟩
  | rd off =>
    have ht := hostRead_next off s t h
    exact .inr (.inl ⟨rfl, by simp [inputWrite], by rw [ht]; rfl⟩)
  | poll off mask val =>
    refine .inr (.inl ⟨rfl, by simp [inputWrite], ?_⟩)
    simp only [applyInput, hostPoll] at h
    split at h
    · cases h
    · split at h <;> cases h <;> rfl
  | busWr a v =>
    simp only [applyInput, busWrite] at h
    cases hw : windowOffset a with
    | none =>
      rw [hw] at h
      cases h
      exact .inr (.inl ⟨rfl, by simp [inputWrite, hw], rfl⟩)
    | some off =>
      rw [hw] at h
      cases h
      exact .inl ⟨off, v, by simp [inputWrite, hw], rfl⟩
  | busRd a =>
    refine .inr (.inl ⟨rfl, by simp [inputWrite], ?_⟩)
    simp only [applyInput, busRead] at h
    cases hw : windowOffset a with
    | none =>
      rw [hw] at h
      cases h
      rfl
    | some off =>
      rw [hw] at h
      rw [hostRead_next off s t h]
      rfl
  | assertReset =>
    cases h
    exact .inr (.inr ⟨rfl, true, rfl⟩)
  | releaseReset =>
    by_cases hr : s.resetHeld = true
    · simp only [applyInput, releaseReset_held s hr] at h
      cases h
      exact .inr (.inr ⟨hr, false, rfl⟩)
    · rw [Bool.not_eq_true] at hr
      simp only [applyInput, releaseReset_released s hr] at h
      cases h
      exact .inr (.inl ⟨hr, by simp [inputWrite], rfl⟩)

/-! ### Steps -/

/-- Everything a step can be: an execute step, an illegal word's completion, an input, or waiting. -/
theorem stepBy_cases (execute : Instr → State → Result) (s : State) :
    (∃ v i, nextMove s = .execute v ∧ decode v = .ok i ∧ stepBy execute s = execute i (passTurn s)) ∨
    (∃ v e, nextMove s = .execute v ∧ decode v = .error e ∧ stepBy execute s = execIllegal (passTurn s)) ∨
    (∃ x, nextMove s = .input x ∧ stepBy execute s = applyInput x (takeInput s)) ∨
    (nextMove s = .idle ∧ stepBy execute s = .next (passTurn s)) := by
  simp only [stepBy]
  cases hm : nextMove s with
  | execute v =>
    cases hd : decode v with
    | ok i => exact .inl ⟨v, i, rfl, hd, by simp only [hd]⟩
    | error e => exact .inr (.inl ⟨v, e, rfl, hd, by simp only [hd]⟩)
  | input x => exact .inr (.inr (.inl ⟨x, rfl, rfl⟩))
  | idle => exact .inr (.inr (.inr ⟨rfl, rfl⟩))

/-- The same of this hardware's step. -/
theorem step_cases (s : State) :
    (∃ v i, nextMove s = .execute v ∧ decode v = .ok i ∧ step s = exec i (passTurn s)) ∨
    (∃ v e, nextMove s = .execute v ∧ decode v = .error e ∧ step s = execIllegal (passTurn s)) ∨
    (∃ x, nextMove s = .input x ∧ step s = applyInput x (takeInput s)) ∨
    (nextMove s = .idle ∧ step s = .next (passTurn s)) :=
  stepBy_cases exec s

/-- The execute step is taken only while ENGINE is RUN of that word. -/
theorem nextMove_execute (s : State) (v : Word) (h : nextMove s = .execute v) : s.engine = .run v := by
  unfold nextMove at h
  split at h <;> simp_all

/-- An input is taken only from the front of what is pending. -/
theorem nextMove_input (s : State) (x : Input) (h : nextMove s = .input x) : ∃ rest, s.pending = x :: rest := by
  unfold nextMove at h
  split at h <;> simp_all

theorem illegal_next (s : State) : execIllegal s = .next (rejectedWith 1 s) := by
  simp [execIllegal, raiseCmdError, complete, rejectedWith, ResultCode.bits]

end Sys2Proof.Machine
end

