-- ==== Sys2Proof/Tests/Slice0.lean ====
section
/-! SUPPORT. The model's own tests. Expected values come from the vectors of 95_test_vectors.md and from the tables
of the rules named; after them stand the witnesses: for every statement with hypotheses, a concrete state and
operands that meet them together, clause by clause at the ends of its ranges. -/

namespace Sys2Proof.Tests

open Sys2Proof Sys2Proof.Machine Sys2Proof.Safety

/-! ### Helpers -/

/-- The next state, where there is one. -/
def out (r : Result) : Option State :=
  match r with
  | .next t => some t
  | .fault _ => none
  | .refused _ => none

/-- Right after reset, with `bs` in IN_BUF from its first byte and LEN their number. -/
def loaded (bs : List Byte) : State :=
  { storeBytes 0x100 bs State.reset with len := BitVec.ofNat 8 bs.length }

/-- `loaded`, with a width and an absolute time. -/
def loadedAt (bs : List Byte) (w : Half) (t : Word) : State := { loaded bs with unitWidth := w, absTime := t }

/-- LEN and UNIT_WIDTH alone, with the block otherwise as reset leaves it. -/
def withLen (n : Byte) (w : Half) : State := { State.reset with len := n, unitWidth := w }

/-- BUSY 1 with word `v` issued. -/
def running (v : Word) : State := issue v State.reset

/-- The host does `x` at the next step. -/
def about (x : Input) (s : State) : State := { s with pending := [x], turns := [.host] }

/-- The reset input is asserted. -/
def held : State := resetBlock true State.reset

/-- STATUS after an operation. -/
def statusAfter (i : Instr) (s : State) : Option Word := (out (exec i s)).map (memRead 0x008)

/-! ### Well-formedness: each check refuses an ill-formed word -/

/-- V-SYS-4's word: OP 6 is not defined (R92). -/
theorem test_wellFormed_op_6_refused :
    opDefined 0x00000006 = false ∧ reservedClear 0x00000006 = true ∧ legalWord 0x00000006 = false := by decide

/-- V-SYS-5's and V-SYS-6's words: a reserved bit at either end of 31:4 is set (R92). -/
theorem test_wellFormed_reserved_bits_refused :
    reservedClear 0x00000010 = false ∧ reservedClear 0x80000001 = false ∧
    opDefined 0x00000010 = true ∧ legalWord 0x00000010 = false ∧ legalWord 0x80000001 = false := by decide

/-! ### Decoding: words written out from R90 and R91, bits 31:4 zero and OP below -/

theorem test_decode_nop : decode 0b00000000000000000000000000000000 = .ok .nop := by decide
theorem test_decode_crc : decode 0b00000000000000000000000000000001 = .ok .crc := by decide
theorem test_decode_frame : decode 0b00000000000000000000000000000010 = .ok .frame := by decide
theorem test_decode_encode : decode 0b00000000000000000000000000000011 = .ok .encode := by decide
theorem test_decode_frameEnc : decode 0b00000000000000000000000000000100 = .ok .frameEnc := by decide
theorem test_decode_expand : decode 0b00000000000000000000000000000101 = .ok .expand := by decide

/-- R93: the illegal words, each by its own name. -/
theorem test_decode_illegal_named :
    decode 0x00000006 = .error (.reservedOp 6) ∧ decode 0x0000000F = .error (.reservedOp 15) ∧
    decode 0x00000010 = .error (.reservedBits 1) ∧ decode 0x80000001 = .error (.reservedBits 0x8000000) := by decide

/-! ### The two ROMs -/

/-- R9: the table is the one its generator leaves. -/
theorem test_crcTable_generated : ∀ i : Byte, tableAt Config.hardware.crcTable i = crcTableEntry i := by
  decide +kernel

/-- V-CRC-13: the published check value of CRC-8/MAXIM. -/
theorem test_crc_check_value :
    crc Config.hardware.crcTable [0x31, 0x32, 0x33, 0x34, 0x35, 0x36, 0x37, 0x38, 0x39] = 0xA1 := by decide +kernel

/-! ### The operations -/

/-- V-SYS-20: NOP does not check LEN. -/
theorem test_nop_ignores_len : statusAfter .nop (withLen 200 417) = some 0x02 := by decide

/-- V-SYS-11: NOP after STATUS 0x36 leaves ERR and gives ERRCODE 0. -/
theorem test_nop_keeps_err :
    statusAfter .nop { State.reset with done := true, err := true, errCode := 3 } = some 0x06 := by decide

/-- V-CRC-12: the residue of a frame. -/
theorem test_crc_residue :
    (out (exec .crc (loaded [0x92, 0x24, 0x62, 0x6A, 0x3C]))).map State.result = some 0x00 := by decide +kernel

/-- V-CRC-14: LEN 129 is LEN_RANGE and RESULT stays. -/
theorem test_crc_len_129 :
    (out (exec .crc { withLen 129 417 with result := 0x5A })).map (fun t => (memRead 0x008 t, t.result)) =
      some (0x26, 0x5A) := by decide

/-- V-FRM-4: OUT_BUF, OUT_LEN and RESULT. -/
theorem test_frame_vector :
    (out (exec .frame (loaded [0xFF, 0x24, 0x62, 0x6A]))).map
      (fun t => (bytesAt t 0x180 6, t.outLen, t.result)) =
      some ([0x93, 0xFF, 0x24, 0x62, 0x6A, 0xC8], 6, 0xC8) := by decide +kernel

/-- V-FRM-8: LEN 113 is LEN_RANGE and OUT_LEN stays. -/
theorem test_frame_len_113 :
    (out (exec .frame { withLen 113 417 with outLen := 9 })).map (fun t => (memRead 0x008 t, t.outLen)) =
      some (0x26, 9) := by decide

/-- V-ENC-27: the pulses of 92, and their number. -/
theorem test_encode_vector :
    (out (exec .encode (loaded [0x92]))).map (fun t => ((pulsesAt t 6).map BitVec.toNat, t.pulseCount)) =
      some ([834, 417, 834, 417, 834, 834], 6) := by decide +kernel

/-- V-SYS-8: LEN_RANGE comes before PARAM. -/
theorem test_encode_len_before_param : statusAfter .encode (withLen 0 0) = some 0x26 := by decide

/-- V-ENC-24: the empty payload, framed and encoded. -/
theorem test_frameEnc_empty :
    (out (exec .frameEnc (loaded []))).map
      (fun t => (bytesAt t 0x180 2, t.outLen, (pulsesAt t 10).map BitVec.toNat, t.pulseCount)) =
      some ([0x8F, 0xCD], 2, [417, 1668, 1251, 417, 417, 417, 417, 834, 834, 1251], 10) := by decide +kernel

/-- V-ENC-26: LEN 113 with UNIT_WIDTH 0 is LEN_RANGE. -/
theorem test_frameEnc_len_before_param : statusAfter .frameEnc (withLen 113 0) = some 0x26 := by decide

/-- V-EXP-5: at time 100 only the last bucket is valid, at time 0. -/
theorem test_expand_last_bucket :
    (out (exec .expand (loadedAt [0x24, 0x62, 0x6A] 417 100))).map
      (fun t => (t.expValid, t.expTime[15], t.expLen[15], t.expLen[14], bytesAt t 0xF80 6)) =
      some (0x8000, 0, 6, 0, [0x93, 0x20, 0x24, 0x62, 0x6A, 0x53]) := by decide +kernel

/-- V-EXP-8: at the largest time no output time wraps. -/
theorem test_expand_largest_time :
    (out (exec .expand (loadedAt [0x01] 417 0xFFFFFFFF))).map
      (fun t => (t.expValid, t.expTime[0], t.expTime[15], bytesAt t 0x800 4)) =
      some (0xFFFF, 0xFFFFF9BF, 0xFFFFFF9B, [0x91, 0xFF, 0x01, 0x5C]) := by decide +kernel

/-- V-ENC-19's whole list: the other stop setting, a configuration this hardware does not have. -/
theorem test_pulses_with_stop_each_byte :
    pulseEncode true [0x92, 0x24, 0x62, 0x6A, 0x3C] 1 =
      [2, 1, 2, 1, 2, 2, 3, 1, 2, 1, 2, 1, 2, 1, 3, 2, 1, 1, 2, 1, 1, 1, 1, 2, 1, 1, 3, 4, 2, 1] := by decide

/-- V-EXP-11: the valid mask at the ends of its ranges. -/
theorem test_validMask_table :
    validMask 99 = 0x0000 ∧ validMask 100 = 0x8000 ∧ validMask 250 = 0xC000 ∧ validMask 1599 = 0xFFFE ∧
    validMask 1600 = 0xFFFF := by decide

/-- The configuration of D1's other table, MSB first with 0xE7, and of a stop symbol after each byte. -/
def alternative : Config where
  crcTable := Vector.ofFn (fun j : Fin 256 =>
    Nat.repeat (fun b : Byte => if b.getLsbD 7 then (b <<< 1) ^^^ 0xE7 else b <<< 1) 8 (BitVec.ofFin j))
  stopEachByte := true

/-- L1-2: under the other table FRAME gives D00's `92 24 62 6A 4B`. -/
theorem test_frame_other_table :
    (out (execWith alternative .frame (loaded [0x24, 0x62, 0x6A]))).map (fun t => bytesAt t 0x180 5) =
      some [0x92, 0x24, 0x62, 0x6A, 0x4B] := by decide +kernel

/-- V-ENC-19: under the other stop setting ENCODE gives 30 durations. -/
theorem test_encode_other_stop :
    (out (execWith alternative .encode { loaded [0x92, 0x24, 0x62, 0x6A, 0x3C] with unitWidth := 1 })).map
      (fun t => (t.pulseCount, (pulsesAt t 6).map BitVec.toNat)) = some (30, [2, 1, 2, 1, 2, 2]) := by decide +kernel

/-! ### The window -/

/-- V-MEM-2: LOAD's writes. -/
theorem test_load_packs_bytes :
    hostLoad [0x24, 0x62, 0x6A] = [.wr 0x100 0x006A6224, .wr 0x010 0x00000003] := by decide

/-- Program P4, row 3: RUN of the reserved op 0x6 writes its word and waits. -/
theorem test_run_reserved_op :
    hostRun 0x6 = [.wr 0x004 0x00000006, .poll 0x008 0x1 0x0] ∧ hostIssue 0x5 = [.wr 0x004 (encode .expand)] := by decide

/-- R210: while reset is asserted a write of CMD, LEN, IRQ_EN or IN_BUF takes no hold, and registers read their reset
values. -/
theorem test_writes_during_reset :
    memWrite 0x004 1 held = held ∧ memWrite 0x010 9 held = held ∧ memWrite 0x00C 1 held = held ∧
    (memWrite 0x100 7 held).mem = [] ∧ memRead 0x014 held = 0x000001A1 ∧ memRead 0x008 held = 0 := by decide

/-- V-MEM-1: one word write stores four bytes, the lowest first. -/
theorem test_inBuf_word :
    bytesAt (memWrite 0x100 0x6A622492 State.reset) 0x100 4 = [0x92, 0x24, 0x62, 0x6A] := by decide

/-- V-MEM-3: OUT_BUF's first word after a frame. -/
theorem test_outBuf_word :
    (out (exec .frame (loaded [0xFF, 0x24, 0x62, 0x6A]))).map (memRead 0x180) = some 0x6224FF93 := by decide +kernel

/-- V-MEM-4, V-MEM-7, V-MEM-8: an unaligned offset, and the bits LEN and UNIT_WIDTH do not store. -/
theorem test_register_reads :
    memRead 0x003 State.reset = 0x39580001 ∧ memRead 0x010 (memWrite 0x010 0x000001FF State.reset) = 0x000000FF ∧
    memRead 0x014 (memWrite 0x014 0x00012345 State.reset) = 0x00002345 := by decide

/-- V-SYS-12, V-SYS-13: writes during BUSY. -/
theorem test_writes_during_busy :
    memWrite 0x010 9 (running 1) = { running 1 with werr := true } ∧
    memRead 0x004 (memWrite 0x004 1 (running 0)) = 0 := by decide

/-- V-SYS-10: CLEAR keeps ERRCODE. -/
theorem test_clear_keeps_errCode :
    memRead 0x008 (memWrite 0x008 0xE { State.reset with done := true, err := true, errCode := 3 }) = 0x30 := by decide

/-- V-SYS-7: ILLEGAL_CMD comes before LEN_RANGE. -/
theorem test_step_illegal_word :
    (out (step (issue 0x00000007 (withLen 200 417)))).map (memRead 0x008) = some 0x16 := by decide

/-- Program P4, outcome A and outcome B: row 10's write after the completion, and before it. -/
theorem test_write_race :
    (out (step (about (.wr 0x010 2) (complete .ok (issue 3 (loaded [0x92])))))).map
      (fun t => (t.len, memRead 0x008 t)) = some (2, 0x02) ∧
    (out (step (about (.wr 0x010 2) (issue 3 (loaded [0x92]))))).map
      (fun t => (t.len, memRead 0x008 t)) = some (1, 0x09) := by decide +kernel

/-- V-SYS-19: reset is asserted while BUSY is 1. -/
theorem test_step_reset_during_busy :
    (out (step (about .assertReset (running 1)))).map (fun t => (memRead 0x008 t, t.engine)) = some (0x00, .idle) := by
  decide

/-- U6: a read of STATUS stops on a code this edition never produces, and one bit less does not stop. -/
theorem test_reserved_errCode :
    (out (hostRead 0x008 { State.reset with errCode := 4 })).isNone = true ∧
    (out (hostRead 0x008 { State.reset with errCode := 3 })).isSome = true := by decide

/-! ### Witnesses: encoding and steps -/

/-- LegalWordsAreTheSixOfTheTable: the last legal word. -/
theorem witness_legalWords : decode 0x00000005 = .ok .expand := by decide

/-- IllegalCommandReportsAndChangesNothing: a reserved bit, and the first and last undefined codes. -/
theorem witness_illegal :
    nextMove (running 0x00000010) = .execute 0x00000010 ∧ (0x00000010 : Word).extractLsb' 4 28 ≠ 0 ∧
    nextMove (running 0x00000006) = .execute 0x00000006 ∧ 6 ≤ ((0x00000006 : Word).extractLsb' 0 4).toNat ∧
    nextMove (running 0x0000000F) = .execute 0x0000000F ∧ 6 ≤ ((0x0000000F : Word).extractLsb' 0 4).toNat := by decide

/-- StepRunsDecodedInstruction: by the turn, and with nothing pending on the host's turn. -/
theorem witness_stepRuns :
    ((running 5).engine = .run 5 ∧ (running 5).turns.headD .engine = .engine ∧ decode 5 = .ok .expand) ∧
    ({ running 5 with turns := [.host] }.engine = .run 5 ∧ { running 5 with turns := [.host] }.pending = [] ∧
      decode 5 = .ok .expand) := by decide

/-- StepPerformsFirstPendingInput: idle on the engine's turn, and running on the host's. -/
theorem witness_stepPerforms :
    ({ State.reset with pending := [.rd 0x008] }.pending = [.rd 0x008] ∧
      { State.reset with pending := [.rd 0x008] }.engine = .idle) ∧
    ((about (.rd 0x008) (running 1)).pending = [.rd 0x008] ∧
      (about (.rd 0x008) (running 1)).turns.headD .engine = .host) := by decide

/-- IdleBlockWaits. -/
theorem witness_idle : State.reset.engine = .idle ∧ State.reset.pending = [] := by decide

/-- FetchedCommandRunsNext. -/
theorem witness_fetched : decodeTableWord 32 0x00000005 = some .expand := by decide

/-! ### Witnesses: issue and STATUS -/

/-- AcceptedCommandWriteIssues, IrqEnableRegister and OperandRegistersStoreDefinedBits with BUSY 0; the dropped CMD write with
BUSY 1. -/
theorem witness_busy_both :
    (State.reset.busy = false ∧ State.reset.resetHeld = false) ∧
    ((running 1).busy = true ∧ (running 1).resetHeld = false) := by decide

/-- WritesDuringBusyAreDropped: every register, and the first and last byte of IN_BUF. -/
theorem witness_droppedWrites :
    (running 1).busy = true ∧ (running 1).resetHeld = false ∧ wordOffset 0x004 = 0x004 ∧ wordOffset 0x013 = 0x010 ∧ wordOffset 0x014 = 0x014 ∧
    wordOffset 0x018 = 0x018 ∧ 0x100 ≤ wordOffset 0x100 ∧ wordOffset 0x17F < 0x180 := by decide

/-- The host's CMD write of a word is next, with BUSY 0 and the interrupt asserted. -/
def aboutToIssue : State := about (.wr 0x004 1) { State.reset with done := true, ie := true }

/-- The engine's execute step is next. -/
def aboutToComplete : State := { running 1 with ie := true }

/-- The reset input is next, during an operation. -/
def aboutToReset : State := about .assertReset (running 1)

/-- A STATUS write of `v` is next, with every flag set. -/
def aboutToClear (v : Word) : State :=
  about (.wr 0x008 v) { State.reset with done := true, err := true, werr := true, ie := true }

/-- The CMD write of `aboutToIssue` is the step about to be taken. -/
theorem witness_aboutToIssue : AboutToWrite aboutToIssue .cmd 1 :=
  ⟨.wr 0x004 1, 0x004, by decide, by decide, by decide⟩

theorem witness_aboutToComplete : AboutToExecute aboutToComplete := ⟨1, by decide⟩

theorem witness_aboutToReset : AboutToReset aboutToReset ∧ AboutToReset (about .releaseReset held) :=
  ⟨⟨.assertReset, by decide, rfl⟩, ⟨.releaseReset, by decide, rfl⟩⟩

theorem witness_aboutToClear : AboutToWrite (aboutToClear 0xE) .status 0xE :=
  ⟨.wr 0x008 0xE, 0x008, by decide, by decide, by decide⟩

/-- A bus write at BASE + 4 is a CMD write too. -/
theorem witness_bus_issue :
    AboutToWrite (about (.busWr (Config.base + 4) 1) State.reset) .cmd 1 := by
  refine ⟨.busWr (Config.base + 4) 1, 0x004, by rfl, ?_, by decide⟩
  have h : Config.base ≤ Config.base + 4 ∧ Config.base + 4 < Config.base + 0x4000 := by omega
  simp [inputWrite, windowOffset, h]

/-- BusyChangesOnlyByIssueCompletionReset: BUSY rises at the issue and falls at the completion and at reset. -/
theorem witness_busyChanges :
    (aboutToIssue.busy = false ∧ aboutToIssue.resetHeld = false ∧ (out (step aboutToIssue)).map State.busy = some true) ∧
    (aboutToComplete.busy = true ∧ (out (step aboutToComplete)).map State.busy = some false) ∧
    (aboutToReset.busy = true ∧ (out (step aboutToReset)).map State.busy = some false) := by decide +kernel

/-- DoneChangesOnlyByTheFourCauses: DONE falls at an issue, at a STATUS write and at reset, and rises at a
completion. -/
theorem witness_doneChanges :
    (aboutToIssue.done = true ∧ aboutToIssue.busy = false ∧ aboutToIssue.resetHeld = false ∧
      (out (step aboutToIssue)).map State.done = some false) ∧
    ((aboutToClear 0xE).done = true ∧ (0xE : Word).getLsbD 1 = true ∧
      (out (step (aboutToClear 0xE))).map State.done = some false) ∧
    ((about .assertReset { State.reset with done := true }).done = true ∧
      (out (step (about .assertReset { State.reset with done := true }))).map State.done = some false) ∧
    (aboutToComplete.done = false ∧ (out (step aboutToComplete)).map State.done = some true) := by decide +kernel

/-- ErrorBitsAreSticky: a dropped write, an error's completion, and the clearing of each bit. -/
theorem witness_errorBits :
    (AboutToWrite (about (.wr 0x010 9) (running 1)) .len 9 ∧ droppedWhileBusy .len = true ∧
      (about (.wr 0x010 9) (running 1)).busy = true ∧ (about (.wr 0x010 9) (running 1)).resetHeld = false) ∧
    ((out (step (running 6))).map (fun t => (t.err, t.errCode)) = some (true, 1)) ∧
    ((aboutToClear 0xE).err = true ∧ (aboutToClear 0xE).werr = true ∧ (0xE : Word).getLsbD 2 = true ∧
      (0xE : Word).getLsbD 3 = true ∧
      (out (step (aboutToClear 0xE))).map (fun t => (t.err, t.werr)) = some (false, false)) :=
  ⟨⟨⟨.wr 0x010 9, 0x010, by decide, by decide, by decide⟩, by decide, by decide, by decide⟩, by decide, by decide⟩

/-- CompletionAssertsIrqWhenEnabled: an operation and an illegal word complete. -/
theorem witness_completion :
    (out (exec .crc { loaded [] with ie := true })).map irq = some true ∧
    (out (execIllegal { running 6 with ie := true })).map irq = some true := by decide +kernel

/-- IrqFallsOnlyByTheFourCauses: irq falls at a STATUS write, an IRQ_EN write, an issue and reset. -/
theorem witness_irqFalls :
    (irq (aboutToClear 0x2) = true ∧ (out (step (aboutToClear 0x2))).map irq = some false) ∧
    (AboutToWrite (about (.wr 0x00C 0) { State.reset with done := true, ie := true }) .irqEn 0 ∧
      (0 : Word).getLsbD 0 = false ∧
      (about (.wr 0x00C 0) { State.reset with done := true, ie := true }).resetHeld = false ∧ irq (about (.wr 0x00C 0) { State.reset with done := true, ie := true }) = true ∧
      (out (step (about (.wr 0x00C 0) { State.reset with done := true, ie := true }))).map irq = some false) ∧
    (irq aboutToIssue = true ∧ (out (step aboutToIssue)).map irq = some false) ∧
    (irq (about .assertReset { State.reset with done := true, ie := true }) = true ∧
      (out (step (about .assertReset { State.reset with done := true, ie := true }))).map irq = some false) :=
  ⟨by decide, ⟨⟨.wr 0x00C 0, 0x00C, by decide, by decide, by decide⟩, by decide, by decide, by decide, by decide⟩,
    by decide, by decide⟩

/-! ### Witnesses: the window -/

/-- ReservedOffsetsReadZeroIgnoreWrites: both ends of every reserved range. -/
theorem witness_reservedOffsets :
    wordOffset 0x02C = 0x02C ∧ wordOffset 0x03F = 0x03C ∧ wordOffset 0x0C0 = 0x0C0 ∧ wordOffset 0x0FF = 0x0FC ∧
    wordOffset 0x200 = 0x200 ∧ wordOffset 0x7FF = 0x7FC ∧ wordOffset 0x1000 = 0x1000 ∧ wordOffset 0x1FFF = 0x1FFC ∧
    wordOffset 0x3400 = 0x3400 ∧ wordOffset 0x3FFF = 0x3FFC := by decide

/-- ReadOnlyLocationsIgnoreWrites, and the output ranges of ReadsDuringBusy: both ends of every range. -/
theorem witness_readOnlyOffsets :
    wordOffset 0x003 = 0x000 ∧ wordOffset 0x01C = 0x01C ∧ wordOffset 0x02B = 0x028 ∧ wordOffset 0x040 = 0x040 ∧
    wordOffset 0x0BF = 0x0BC ∧ wordOffset 0x180 = 0x180 ∧ wordOffset 0x1FF = 0x1FC ∧ wordOffset 0x800 = 0x800 ∧
    wordOffset 0xFFF = 0xFFC ∧ wordOffset 0x2000 = 0x2000 ∧ wordOffset 0x33FF = 0x33FC ∧
    (running 1).busy = true := by decide

/-- InBufWordWriteStoresLittleEndian: the last word of IN_BUF. -/
theorem witness_inBufWord :
    31 < 32 ∧ State.reset.busy = false ∧ State.reset.resetHeld = false ∧ byteAt (memWrite 0x17C 0x44332211 State.reset) 0x17F = 0x44 := by decide

/-- ReadsChangeNoBlockState: a read that is answered and one that is specified. -/
theorem witness_read :
    hostRead 0x000 State.reset = .next (noteRead 0x000 State.reset) ∧ readUnspecified 0x000 State.reset = false :=
  ⟨rfl, by decide⟩

/-- OutputsReadWhatTheyHold: BUSY 0, at reset and after a completion, and the last word, slot and entry. -/
theorem witness_outputs :
    State.reset.busy = false ∧ locate 0x17C = .inBuf 31 ∧ locate 0x1FC = .outBuf 31 ∧ locate 0xFFC = .expFrame 15 31 ∧
    locate 0x33FC = .pulseBuf 1279 ∧ locate 0x07C = .expTime 15 ∧ locate 0x0BC = .expLen 15 ∧
    (complete .ok (running 1)).busy = false ∧ memRead 0x004 (complete .ok (running 1)) = 1 := by decide

/-- BusAddressesReachOnlyTheWindow: the window's last byte, and the address after it. -/
theorem witness_busAddress :
    Config.base + 0x3FFF = Config.base + (0x3FFF : Offset).toNat ∧ Config.base + 0x4000 ≤ Config.base + 0x4000 :=
  ⟨rfl, Nat.le_refl _⟩

/-- PollRepeatsUntilItMatches: a WAIT that is over, and one that is not. -/
theorem witness_poll :
    State.reset.errCode.toNat ≤ 3 ∧ memRead 0x008 State.reset &&& 0x1 = 0x0 ∧
    (running 1).errCode.toNat ≤ 3 ∧ memRead 0x008 (running 1) &&& 0x1 ≠ 0x0 := by decide

/-- ResetInputAbandonsEverything: asserted during an operation, released, and released again. -/
theorem witness_reset :
    applyInput .assertReset (running 1) = .next (resetBlock true (running 1)) ∧
    held.resetHeld = true ∧ applyInput .releaseReset held = .next (resetBlock false held) ∧
    State.reset.resetHeld = false ∧ applyInput .releaseReset State.reset = .next State.reset :=
  ⟨rfl, rfl, rfl, rfl, rfl⟩

/-! ### Witnesses: the operations -/

/-- NopCompletesWithoutEffect: a word with OP 0 and a reserved bit, and the example's STATUS (V-SYS-3). -/
theorem witness_nop :
    (nextMove (running 0x00000010) = .execute 0x00000010 ∧ (0x00000010 : Word).extractLsb' 0 4 = 0 ∧
      (0x00000010 : Word).extractLsb' 4 28 ≠ 0) ∧
    (memRead 0x008 { State.reset with err := true } = 0x00000004 ∧
      statusAfter .nop { State.reset with err := true } = some 0x00000006) := by decide

/-- CrcWritesResult: LEN 0, 128 and 129, a reserved bit, and the example's input. -/
theorem witness_crc :
    (withLen 0 417).len.toNat ≤ 128 ∧ (withLen 128 417).len.toNat ≤ 128 ∧ 128 < (withLen 129 417).len.toNat ∧
    (nextMove (running 0x80000001) = .execute 0x80000001 ∧ (0x80000001 : Word).extractLsb' 0 4 = 1 ∧
      (0x80000001 : Word).extractLsb' 4 28 ≠ 0) ∧
    ((loaded [0x93, 0xFF, 0x24, 0x62, 0x6A]).len = 5 ∧
      inBytes (loaded [0x93, 0xFF, 0x24, 0x62, 0x6A]) 5 = [0x93, 0xFF, 0x24, 0x62, 0x6A]) := by decide

/-- FrameWritesOutBuf and FrameEncWritesFrameAndPulses: LEN 0, 112 and 113, with a width and without, and a
reserved bit. -/
theorem witness_frame :
    (withLen 0 1).len.toNat ≤ 112 ∧ (withLen 112 65535).len.toNat ≤ 112 ∧ 112 < (withLen 113 1).len.toNat ∧
    (withLen 0 1).unitWidth ≠ 0 ∧ (withLen 112 65535).unitWidth ≠ 0 ∧ (withLen 112 0).unitWidth = 0 ∧
    (nextMove (running 0x00000012) = .execute 0x00000012 ∧ (0x00000012 : Word).extractLsb' 0 4 = 2 ∧
      (0x00000012 : Word).extractLsb' 4 28 ≠ 0) ∧
    (withLen 0 1).len = 0 := by decide

/-- EncodeWritesPulseBuf: LEN 0, 1, 128 and 129, widths 0, 1 and 65535, and a reserved bit. -/
theorem witness_encode :
    (1 ≤ (withLen 1 1).len.toNat ∧ (withLen 1 1).len.toNat ≤ 128 ∧ (withLen 1 1).unitWidth ≠ 0) ∧
    (1 ≤ (withLen 128 65535).len.toNat ∧ (withLen 128 65535).len.toNat ≤ 128 ∧
      (withLen 128 65535).unitWidth ≠ 0) ∧
    (withLen 0 1).len.toNat = 0 ∧ 128 < (withLen 129 1).len.toNat ∧
    (1 ≤ (withLen 1 0).len.toNat ∧ (withLen 1 0).len.toNat ≤ 128 ∧ (withLen 1 0).unitWidth = 0) ∧
    (nextMove (running 0x00000013) = .execute 0x00000013 ∧ (0x00000013 : Word).extractLsb' 0 4 = 3 ∧
      (0x00000013 : Word).extractLsb' 4 28 ≠ 0) := by decide

/-- FrameEncIsFrameThenEncode, and a FRAME_ENC word with a reserved bit. -/
theorem witness_frameEnc :
    (withLen 112 1).len.toNat ≤ 112 ∧ (withLen 112 1).unitWidth ≠ 0 ∧
    (nextMove (running 0xFFFFFFF4) = .execute 0xFFFFFFF4 ∧ (0xFFFFFFF4 : Word).extractLsb' 0 4 = 4 ∧
      (0xFFFFFFF4 : Word).extractLsb' 4 28 ≠ 0) := by decide

/-- ExpandWritesSlots: LEN 0, 111 and 112, times on both sides of the first and last bucket, a reserved bit, and
the example's input. -/
theorem witness_expand :
    (withLen 0 417).len.toNat ≤ 111 ∧ (withLen 111 417).len.toNat ≤ 111 ∧ 111 < (withLen 112 417).len.toNat ∧
    ((16 - (15 : Fin 16).val) * 100 ≤ (100 : Word).toNat ∧ ¬ (16 - (15 : Fin 16).val) * 100 ≤ (99 : Word).toNat) ∧
    ((16 - (0 : Fin 16).val) * 100 ≤ (1600 : Word).toNat ∧ ¬ (16 - (0 : Fin 16).val) * 100 ≤ (1599 : Word).toNat) ∧
    (nextMove (running 0x00000015) = .execute 0x00000015 ∧ (0x00000015 : Word).extractLsb' 0 4 = 5 ∧
      (0x00000015 : Word).extractLsb' 4 28 ≠ 0) ∧
    ((loadedAt [0x24, 0x62, 0x6A] 417 12300).absTime = 12300 ∧ (loadedAt [0x24, 0x62, 0x6A] 417 12300).len = 3 ∧
      inBytes (loadedAt [0x24, 0x62, 0x6A] 417 12300) 3 = [0x24, 0x62, 0x6A]) := by decide

/-- FirstFailingCheckIsReportedAlone: each code; OperationsKeepOperandsAndControl: an operation that completes. -/
theorem witness_codes :
    codeOf .encode (withLen 1 1) = 0 ∧ codeOf .encode (withLen 0 0) = 2 ∧ codeOf .encode (withLen 1 0) = 3 ∧
    codeOf .nop (withLen 255 0) = 0 := by decide

theorem witness_next : exec .nop State.reset = .next (complete .ok State.reset) := rfl

/-! ### Witnesses: the pure functions -/

/-- CrcResidueIsZero: this hardware's table. -/
theorem witness_crcTable : tableAt Config.hardware.crcTable 0 = 0 := by decide

/-- CrcWorkedExamples: the table of D1's other reading exists. -/
theorem witness_alternativeTable :
    ∃ T : Vector Byte 256, ∀ i : Byte, tableAt T i =
      Nat.repeat (fun c : Byte => if c.getLsbD 7 then (c <<< 1) ^^^ 0xE7 else c <<< 1) 8 i := by
  refine ⟨Vector.ofFn (fun j : Fin 256 =>
    Nat.repeat (fun c : Byte => if c.getLsbD 7 then (c <<< 1) ^^^ 0xE7 else c <<< 1) 8 (BitVec.ofFin j)), ?_⟩
  intro i
  simp [tableAt]

/-- FrameWritesOutBuf's longest payload, FrameInvariants and SlotFramesDifferOnlyInCodeAndCrc: the empty sequence and the longest ones. -/
theorem witness_lengths :
    ([] : List Byte).length ≤ 112 ∧ (List.replicate 112 (0 : Byte)).length = 112 ∧
    (List.replicate 111 (0 : Byte)).length ≤ 111 ∧ (1 : Nat) ≠ 0 + 2 := by decide

/-- PulsesAreRunLengthsOfSymbols, PulseListTotals and PulsesFitTheBuffer: one byte and the largest input. -/
theorem witness_pulses :
    ([0x00] : List Byte) ≠ [] ∧ 1 ≤ 1 ∧ (List.replicate 128 (0xFF : Byte)).length ≤ 128 ∧ 65535 ≤ 65535 ∧
    (symbolRuns (symbols false [0x00])).length = 2 := by decide +kernel

/-- OutputTimesRiseByOneHundred: a valid bucket with one after it. -/
theorem witness_buckets :
    bucketValid (200 : Word).toNat 14 = true ∧ (14 : Fin 16) < 15 ∧ bucketValid (0xFFFFFFFF : Word).toNat 0 = true := by
  decide

/-! ### Witnesses: the whole machine -/

/-- The invariant holds at reset (the statement InvariantAtReset) and in a state that runs a command, whose step
answers: so EveryStepKeepsTheInvariant and EveryIssuedOperationEnds are about something. -/
theorem witness_invariant : Inv (running 0) ∧ (running 0).engine = .run 0 ∧
    step (running 0) = .next (complete .ok (running 0)) := by
  refine ⟨⟨⟨.nil, by decide⟩, by decide, ⟨rfl, rfl, rfl⟩, .inl rfl, .inl rfl, ⟨0, [], by decide, by decide, ?_⟩,
    fun h => absurd h (by decide)⟩, rfl, rfl⟩
  decide +kernel

/-- OnlyAReservedErrCodeStopsAStep: a step that faults. -/
theorem witness_fault :
    step (about (.rd 0x008) { State.reset with errCode := 4 }) = .fault (.reservedErrCode 4) ∧
    AboutToRead (about (.rd 0x008) { State.reset with errCode := 4 }) .status :=
  ⟨rfl, .rd 0x008, 0x008, by decide, by decide, by decide⟩

/-- BusyWindowKeepsOperandsAndOutputs and AccessDuringBusyCannotChangeTheResult: a dropped write, a cleared flag and
a read of an output. -/
theorem witness_busyWindow :
    (running 1).busy = true ∧ (running 1).resetHeld = false ∧ Input.wr 0x010 9 ≠ .assertReset ∧
    applyInput (.wr 0x010 9) (running 1) = .next (dropWrite (running 1)) ∧
    applyInput (.wr 0x008 0xF) (running 1) = .next (clearFlags 0xF (running 1)) ∧
    applyInput (.rd 0x180) (running 1) = .next (noteRead 0x180 (running 1)) :=
  ⟨rfl, rfl, by decide, rfl, rfl, rfl⟩

/-- WrittenInputsDecideTheResult: written input, and an empty one. -/
theorem witness_written :
    inputWritten (loaded [0x24, 0x62, 0x6A]) = true ∧ inputWritten State.reset = true ∧
    inputWritten (withLen 1 1) = false := by decide

/-! ### Witnesses: the configuration -/

/-- HardwareIsTheConfiguredInstance: the engine's turn, under the other configuration. -/
theorem witness_configuredStep :
    (running 5).engine = .run 5 ∧ (running 5).turns.headD .engine = .engine ∧ decode 5 = .ok .expand ∧
    alternative.stopEachByte ≠ Config.hardware.stopEachByte := by decide

/-- OperationsUseTheConfiguredParameters: a code, and both ends of every range. -/
theorem witness_configuredOperations :
    codeOf .encode (withLen 129 1) ≠ 0 ∧ (withLen 128 1).len.toNat ≤ 128 ∧ (withLen 112 1).len.toNat ≤ 112 ∧
    (withLen 111 1).len.toNat ≤ 111 ∧ 1 ≤ (withLen 1 1).len.toNat ∧ (withLen 0 65535).len.toNat ≤ 111 ∧
    (withLen 0 65535).unitWidth ≠ 0 ∧ (withLen 128 1).unitWidth ≠ 0 := by decide

/-- EveryConfigurationKeepsItsInvariant: a step under the other configuration that answers. -/
theorem witness_configuredInvariant : InvWith alternative (running 0) ∧
    stepWith alternative (running 0) = .next (complete .ok (running 0)) := by
  refine ⟨⟨⟨.nil, by decide⟩, by decide, ⟨rfl, rfl, rfl⟩, .inl rfl, .inl rfl, ⟨0, [], by decide, by decide, ?_⟩,
    fun h => absurd h (by decide)⟩, rfl⟩
  decide +kernel

/-- AssertedResetHoldsResetValues: held, with a CMD write next, with the release next, and with nothing. -/
theorem witness_held :
    Inv held ∧ held.resetHeld = true ∧ (out (step held)).isSome = true ∧
    (out (step (about (.wr 0x004 1) held))).map (fun t => (t.engine, t.busy)) = some (.idle, false) ∧
    nextMove (about .releaseReset held) = .input .releaseReset ∧
    (out (step (about .releaseReset held))).map State.resetHeld = some false := by
  refine ⟨⟨⟨.nil, by decide⟩, by decide, rfl, .inl rfl, .inl rfl, ⟨0, [], by decide, by decide, ?_⟩, fun _ => rfl⟩,
    rfl, by decide, by decide, by decide, by decide⟩
  decide +kernel

end Sys2Proof.Tests
end

section
/-! SUPPORT. One step by its cause: what an execute step, a host write and reset each leave, that nothing else
changes the block, and the STATUS bits that follow. -/

namespace Sys2Proof.Machine

open Sys2Proof.Safety

/-! ### The state a step answers -/

/-- An input that makes a window write is that MemWrite (R72, R79). -/
theorem applyInput_of_inputWrite {x : Input} {off : Offset} {v : Word} (s : State)
    (h : inputWrite x = some (off, v)) : applyInput x s = .next (memWrite off v s) := by
  cases x with
  | wr off' v' =>
    cases h
    rfl
  | busWr a v' =>
    obtain ⟨off', hwin, heq⟩ := Option.map_eq_some_iff.mp h
    cases heq
    simp only [applyInput, busWrite, hwin]
  | rd _ | poll _ _ _ | busRd _ | assertReset | releaseReset => cases h

/-- Taking an input from what is pending does not change whether it resets the block. -/
theorem resetsBlock_takeInput (x : Input) (s : State) : resetsBlock x (takeInput s) = resetsBlock x s := by
  cases x <;> rfl

theorem step_of_input {s : State} {x : Input} (h : nextMove s = .input x) :
    step s = applyInput x (takeInput s) := by
  simp only [step, stepBy, h]

/-- An execute step completes: an operation with OK after its effect, or with a nonzero code and no other effect
(R112, R113). -/
theorem step_of_execute {s : State} (h : AboutToExecute s) :
    (∃ i, step s = .next (complete .ok (effect Config.hardware i (passTurn s)))) ∨
      ∃ code, code ≠ 0 ∧ step s = .next (rejectedWith code (passTurn s)) := by
  obtain ⟨v, hv⟩ := h
  simp only [step, stepBy, hv]
  cases decode v with
  | ok i =>
    by_cases hc : codeOf i (passTurn s) = 0
    · exact .inl ⟨i, exec_ok i _ hc⟩
    · exact .inr ⟨_, hc, exec_rejected i _ hc⟩
  | error e => exact .inr ⟨1, by decide, illegal_next _⟩

theorem step_of_write {s : State} {l : Loc} {v : Word} (h : AboutToWrite s l v) :
    step s = .next (writeLoc l v (takeInput s)) := by
  obtain ⟨x, off, hx, hw, rfl⟩ := h
  rw [step_of_input hx, applyInput_of_inputWrite _ hw, memWrite]

theorem step_of_reset {s : State} (h : AboutToReset s) :
    ∃ held, step s = .next (resetBlock held (takeInput s)) := by
  obtain ⟨x, hx, hr⟩ := h
  cases x with
  | assertReset => exact ⟨true, step_of_input hx⟩
  | releaseReset =>
    exact ⟨false, (step_of_input hx).trans (congrArg Host.Outcome.next (releaseReset_held (takeInput s) hr))⟩
  | wr _ _ | rd _ | poll _ _ _ | busWr _ _ | busRd _ => cases hr

/-- A step that is no execute step, no write and no reset changes nothing of the block. -/
theorem step_causes {s t : State} (h : step s = .next t) :
    AboutToExecute s ∨ (∃ l v, AboutToWrite s l v) ∨ AboutToReset s ∨
      t = { s with pending := t.pending, turns := t.turns, answers := t.answers, draws := t.draws } := by
  rcases step_cases s with ⟨v, _, hm, -, -⟩ | ⟨v, _, hm, -, -⟩ | ⟨x, hm, hs⟩ | ⟨-, hs⟩
  · exact .inl ⟨v, hm⟩
  · exact .inl ⟨v, hm⟩
  · rw [hs] at h
    rcases applyInput_cases x _ t h with ⟨off, v, hw, -⟩ | ⟨-, -, ht⟩ | ⟨hr, -⟩
    · exact .inr (.inl ⟨_, v, x, off, hm, hw, rfl⟩)
    · refine .inr (.inr (.inr ?_))
      rw [ht]
      rfl
    · rw [resetsBlock_takeInput] at hr
      exact .inr (.inr (.inl ⟨x, hm, hr⟩))
  · rw [hs] at h
    cases h
    exact .inr (.inr (.inr rfl))

/-! ### The STATUS bits after a step -/

@[simp] theorem effect_err (c : Config) (i : Instr) (s : State) : (effect c i s).err = s.err := by rw [effect_eq]
@[simp] theorem effect_werr (c : Config) (i : Instr) (s : State) : (effect c i s).werr = s.werr := by rw [effect_eq]

section
variable {s t : State} (h : step s = .next t)
include h

/-- R114, R26: a completion clears BUSY, sets ERR where its code is nonzero, and leaves WERR. -/
theorem status_of_execute (hx : AboutToExecute s) :
    t.busy = false ∧ (t.err = true ↔ s.err = true ∨ t.errCode ≠ 0) ∧ t.werr = s.werr := by
  rcases step_of_execute hx with ⟨i, hs⟩ | ⟨code, hc, hs⟩
  · cases hs.symm.trans h
    simp [ResultCode.bits]
  · cases hs.symm.trans h
    exact ⟨rfl, ⟨fun _ => .inr hc, fun _ => rfl⟩, rfl⟩

/-- R79, R192: a host write sets BUSY at CMD, clears ERR and WERR at STATUS, and sets WERR where it is dropped. -/
theorem status_of_write {l : Loc} {v : Word} (hw : AboutToWrite s l v) :
    t.busy = (s.busy || (decide (l = .cmd) && !s.resetHeld)) ∧
    t.err = (s.err && !(decide (l = .status) && v.getLsbD 2)) ∧
    t.werr = ((s.werr && !(decide (l = .status) && v.getLsbD 3)) ||
      (droppedWhileBusy l && s.busy && !s.resetHeld)) := by
  cases (step_of_write hw).symm.trans h
  obtain ⟨hbusy, -, herr, hwerr, -, -⟩ := writeLoc_bits l v (takeInput s)
  exact ⟨hbusy, herr, hwerr⟩

theorem busy_of_reset (hr : AboutToReset s) : t.busy = false := by
  obtain ⟨held, hs⟩ := step_of_reset hr
  cases hs.symm.trans h
  rfl

/-- Every cause of a change of BUSY, ERR or WERR. -/
theorem status_causes :
    AboutToExecute s ∨ (∃ l v, AboutToWrite s l v) ∨ AboutToReset s ∨
      (t.busy = s.busy ∧ t.err = s.err ∧ t.werr = s.werr) := by
  rcases step_causes h with hx | hw | hr | ht
  · exact .inl hx
  · exact .inr (.inl hw)
  · exact .inr (.inr (.inl hr))
  · exact .inr (.inr (.inr (by rw [ht]; exact ⟨rfl, rfl, rfl⟩)))

/-- R24: BUSY rises only at a CMD write while reset is not asserted. -/
theorem write_of_busy_rise (hs : s.busy = false) (ht : t.busy = true) :
    s.resetHeld = false ∧ ∃ v, AboutToWrite s .cmd v := by
  rcases status_causes h with hx | ⟨l, v, hw⟩ | hr | ⟨hb, -, -⟩
  · simp [(status_of_execute h hx).1] at ht
  · have hb := (status_of_write h hw).1
    obtain ⟨rfl, hheld⟩ : l = .cmd ∧ s.resetHeld = false := by simpa [hs, ht] using hb
    exact ⟨hheld, v, hw⟩
  · simp [busy_of_reset h hr] at ht
  · simp [hb, hs] at ht

/-- R24: BUSY falls only at a completion or reset. -/
theorem execute_or_reset_of_busy_fall (hs : s.busy = true) (ht : t.busy = false) :
    AboutToExecute s ∨ AboutToReset s := by
  rcases status_causes h with hx | ⟨l, v, hw⟩ | hr | ⟨hb, -, -⟩
  · exact .inl hx
  · simp [(status_of_write h hw).1, hs] at ht
  · exact .inr hr
  · simp [hb, hs] at ht

/-- R26: ERR falls only at a STATUS write with bit 2 set, or at reset. -/
theorem clear_or_reset_of_err_fall (hs : s.err = true) (ht : t.err = false) :
    (∃ v, AboutToWrite s .status v ∧ v.getLsbD 2 = true) ∨ AboutToReset s := by
  rcases status_causes h with hx | ⟨l, v, hw⟩ | hr | ⟨-, he, -⟩
  · obtain ⟨-, he, -⟩ := status_of_execute h hx
    simp [ht, hs] at he
  · obtain ⟨-, he, -⟩ := status_of_write h hw
    obtain ⟨rfl, hv⟩ : l = .status ∧ v.getLsbD 2 = true := by simpa [hs, ht] using he
    exact .inl ⟨v, hw, hv⟩
  · exact .inr hr
  · simp [he, hs] at ht

/-- R26: WERR falls only at a STATUS write with bit 3 set, or at reset. -/
theorem clear_or_reset_of_werr_fall (hs : s.werr = true) (ht : t.werr = false) :
    (∃ v, AboutToWrite s .status v ∧ v.getLsbD 3 = true) ∨ AboutToReset s := by
  rcases status_causes h with hx | ⟨l, v, hw⟩ | hr | ⟨-, -, he⟩
  · obtain ⟨-, -, he⟩ := status_of_execute h hx
    simp [he, hs] at ht
  · obtain ⟨-, -, he⟩ := status_of_write h hw
    rw [ht, hs, Bool.true_and, eq_comm, Bool.or_eq_false_iff] at he
    obtain ⟨rfl, hv⟩ : l = .status ∧ v.getLsbD 3 = true := by simpa using he.1
    exact .inl ⟨v, hw, hv⟩
  · exact .inr hr
  · simp [he, hs] at ht

end

/-- Settles O14, from what each cause of a step leaves in BUSY and that no other step changes it. -/
theorem busyChangesOnlyByIssueCompletionReset : Obligations.BusyChangesOnlyByIssueCompletionReset := by
  intro s t h
  refine ⟨write_of_busy_rise h, execute_or_reset_of_busy_fall h, fun v hw hheld => ?_, ?_⟩
  · simp [(status_of_write h hw).1, hheld]
  · rintro (hx | hr)
    · exact (status_of_execute h hx).1
    · exact busy_of_reset h hr

/-- Settles O16, from what each cause of a step leaves in ERR and WERR and that no other step changes them. -/
theorem errorBitsAreSticky : Obligations.ErrorBitsAreSticky := by
  intro s t h
  refine ⟨fun hx => ?_, fun l v hw hdrop hbusy hheld => ?_,
    clear_or_reset_of_err_fall h, clear_or_reset_of_werr_fall h, fun v hw => ?_⟩
  · obtain ⟨-, herr, -⟩ := status_of_execute h hx
    exact herr
  · obtain ⟨-, -, hwerr⟩ := status_of_write h hw
    simp [hwerr, hdrop, hbusy, hheld]
  · obtain ⟨-, herr, hwerr⟩ := status_of_write h hw
    exact ⟨fun h2 => by simp [herr, h2], fun h3 => by simp [hwerr, h3, droppedWhileBusy]⟩

/-! ### IRQ_EN (R29) -/

/-- A flag packed at bit 0 is the word masked with 1. -/
theorem flagBit_zero_getLsbD (v : Word) : flagBit (v.getLsbD 0) 0 = v &&& 1 := by
  have hmask : v &&& 1 = (BitVec.ofBool (v.getLsbD 0)).setWidth 32 := BitVec.and_one_eq_setWidth_ofBool_getLsbD
  rw [hmask, flagBit]
  cases v.getLsbD 0 <;> rfl

/-- A write to IRQ_EN while reset is not asserted takes bit 0, whatever BUSY is. -/
theorem memWrite_irqEn (s : State) (v : Word) (h : s.resetHeld = false) :
    memWrite 0x00C v s = { s with ie := v.getLsbD 0 } := by
  have hloc : locate 0x00C = .irqEn := rfl
  simp only [memWrite, hloc, writeLoc, h, Bool.false_eq_true, if_false]

/-- Settles O12, from the exact effect of the write: IE alone changes, and it reads back at bit 0. -/
theorem irqEnableRegister : Obligations.IrqEnableRegister := by
  refine ⟨fun s v hheld => ?_, rfl⟩
  rw [memWrite_irqEn s v hheld]
  refine ⟨rfl, ?_, rfl⟩
  rw [memRead_of_not_output _ _ rfl]
  exact flagBit_zero_getLsbD v

end Sys2Proof.Machine
end

section
/-! SUPPORT. The window by location: an access depends on its offset through `locate` alone, and what a host read of a
location leaves (R73, R75, R76). -/

namespace Sys2Proof.Machine

/-! ### Accesses depend on the location alone -/

theorem readUnspecified_congr {off off' : Offset} (h : locate off = locate off') (s : State) :
    readUnspecified off s = readUnspecified off' s := by
  rw [readUnspecified, readUnspecified, h]

theorem memRead_congr {off off' : Offset} (h : locate off = locate off') (s : State) :
    memRead off s = memRead off' s := by
  rw [memRead, memRead, readUnspecified_congr h, h]

theorem memWrite_congr {off off' : Offset} (h : locate off = locate off') (v : Word) (s : State) :
    memWrite off v s = memWrite off' v s := by
  rw [memWrite, memWrite, h]

theorem noteRead_congr {off off' : Offset} (h : locate off = locate off') (s : State) :
    noteRead off s = noteRead off' s := by
  rw [noteRead, noteRead, memRead_congr h, readUnspecified_congr h]

theorem meetsReservedErrCode_congr {off off' : Offset} (h : locate off = locate off') (s : State) :
    meetsReservedErrCode off s = meetsReservedErrCode off' s := by
  rw [meetsReservedErrCode, meetsReservedErrCode, h]

theorem hostRead_congr {off off' : Offset} (h : locate off = locate off') (s : State) :
    hostRead off s = hostRead off' s := by
  rw [hostRead, hostRead, meetsReservedErrCode_congr h, noteRead_congr h]

/-! ### Host reads that are answered -/

/-- Only a read of STATUS can fault (log 8). -/
theorem hostRead_of_not_status {off : Offset} (h : locate off ≠ .status) (s : State) :
    hostRead off s = .next (noteRead off s) := by
  simp [hostRead, meetsReservedErrCode, h]

/-- A read of a location that is no output draws no free word: only its value is recorded. -/
theorem noteRead_of_not_output {off : Offset} (h : isOutput (locate off) = false) (s : State) :
    noteRead off s = { s with answers := locValue (locate off) s :: s.answers } := by
  have hspec : readUnspecified off s = false := by rw [readUnspecified, h, Bool.and_false]
  simp only [noteRead, memRead_of_not_output off s h, hspec, Bool.false_eq_true, if_false]

/-! ### Reserved offsets (R73) and the low bits of an offset (R75) -/

/-- Settles O19: every offset of the five ranges names the reserved location, which is no output and is not STATUS. -/
theorem reservedOffsetsReadZeroIgnoreWrites : Obligations.ReservedOffsetsReadZeroIgnoreWrites := by
  intro s off v hrange
  have hloc : locate off = .reserved := locate_reserved off hrange
  have hout : isOutput (locate off) = false := by rw [hloc]; rfl
  have hstatus : locate off ≠ .status := by rw [hloc]; exact Loc.noConfusion
  refine ⟨?_, ?_, ?_⟩
  · rw [memRead_of_not_output off s hout, hloc, locValue]
  · rw [memWrite, hloc, writeLoc]
  · rw [hostRead_of_not_status hstatus, noteRead_of_not_output hout, hloc, locValue]

/-- Settles O20: the masked offset names the same location, on which alone an access depends. -/
theorem offsetLowBitsAreIgnored : Obligations.OffsetLowBitsAreIgnored := by
  intro s off v
  have hloc : locate off = locate (off &&& 0x3FFC) := (locate_masked off).symm
  exact ⟨memRead_congr hloc s, memWrite_congr hloc v s, hostRead_congr hloc s⟩

end Sys2Proof.Machine
end

section
/-! SUPPORT. Legal command words: the decoder accepts exactly the words that pass both checks of R92, and the step of any
other word is its completion with ILLEGAL_CMD (R93). -/

namespace Sys2Proof.Machine

open Sys2Proof.Safety

/-! ### The opcode map (R91) -/

theorem opcodeInstr_eq_some_iff (op : BitVec 4) (i : Instr) : opcodeInstr op = some i ↔ op = opcode i := by
  cases i <;> revert op <;> decide

/-- The opcode map defines the codes 0 to 5. -/
theorem exists_opcode_iff (op : BitVec 4) : (∃ i, op = opcode i) ↔ op.toNat ≤ 5 := by
  constructor
  · rintro ⟨i, rfl⟩
    cases i <;> decide
  · simp only [← opcodeInstr_eq_some_iff, ← Option.isSome_iff_exists]
    revert op
    decide

/-! ### The decoder (R92) -/

/-- A word decodes to the operation whose code is in OP, where RSVD is 0. -/
theorem decode_eq_ok_iff (v : Word) (i : Instr) :
    decode v = .ok i ↔ reservedClear v = true ∧ commandOp v = opcode i := by
  rw [← opcodeInstr_eq_some_iff, decode]
  cases reservedClear v <;> cases opcodeInstr (commandOp v) <;> simp

theorem exists_decode_ok_iff (v : Word) : (∃ i, decode v = .ok i) ↔ legalWord v = true := by
  simp only [decode_eq_ok_iff, exists_and_left, exists_opcode_iff, legalWord, opDefined, Bool.and_eq_true,
    decide_eq_true_iff]

theorem legalWord_iff_fields (v : Word) :
    legalWord v = true ↔ v.extractLsb' 4 28 = 0 ∧ (v.extractLsb' 0 4).toNat ≤ 5 := by
  rw [legalWord, Bool.and_eq_true, reservedClear, beq_iff_eq, opDefined, decide_eq_true_iff, commandRsvd, commandOp]

/-- The legal words are the words 0 to 5: a word is 16 * RSVD + OP. -/
theorem legalWord_iff_toNat_le (v : Word) : legalWord v = true ↔ v.toNat ≤ 5 := by
  have hrsvd : (v.extractLsb' 4 28).toNat = v.toNat / 16 := by
    rw [BitVec.extractLsb'_toNat, Nat.shiftRight_eq_div_pow]
    omega
  have hop : (v.extractLsb' 0 4).toNat = v.toNat % 16 := by
    rw [BitVec.extractLsb'_toNat, Nat.shiftRight_zero]
  have hzero : (0 : BitVec 28).toNat = 0 := rfl
  rw [legalWord_iff_fields, ← BitVec.toNat_inj, hrsvd, hop, hzero]
  omega

theorem decode_error_of_not_legalWord {v : Word} (h : legalWord v ≠ true) : ∃ e, decode v = .error e := by
  cases hd : decode v with
  | ok i => exact absurd ((exists_decode_ok_iff v).mp ⟨i, hd⟩) h
  | error e => exact ⟨e, rfl⟩

/-- Settles O2: the words that decode are those that pass both checks, which are the words 0 to 5. -/
theorem legalWordsAreTheSixOfTheTable : Obligations.LegalWordsAreTheSixOfTheTable := by
  intro v
  refine ⟨(exists_decode_ok_iff v).trans (legalWord_iff_fields v),
    (exists_decode_ok_iff v).trans (legalWord_iff_toNat_le v), fun i hi => ((decode_eq_ok_iff v i).mp hi).2, ?_⟩
  by_cases h : legalWord v = true
  · exact .inl ((exists_decode_ok_iff v).mpr h)
  · exact .inr (decode_error_of_not_legalWord h)

/-! ### The step of an illegal word (R93) -/

/-- An issued word that is not legal completes with ILLEGAL_CMD, and the turn is used up. -/
theorem step_of_illegal {s : State} {v : Word} (hm : nextMove s = .execute v) (h : legalWord v ≠ true) :
    step s = .next (rejectedWith 1 (passTurn s)) := by
  obtain ⟨e, he⟩ := decode_error_of_not_legalWord h
  simp only [step, stepBy, hm, he, illegal_next]

/-- Settles O4: a word with a bit of RSVD set or an undefined code is not legal, and only the turn differs besides. -/
theorem illegalCommandReportsAndChangesNothing : Obligations.IllegalCommandReportsAndChangesNothing := by
  intro s v hm hv
  have hillegal : legalWord v ≠ true := by
    rw [Ne, legalWord_iff_fields]
    rintro ⟨hrsvd, hop⟩
    rcases hv with hv | hv
    · exact hv hrsvd
    · omega
  exact ⟨rejectedWith 1 (passTurn s), step_of_illegal hm hillegal, rfl⟩

end Sys2Proof.Machine
end

section
/-! SUPPORT. Issue and completion: what a CMD write does by BUSY (R110), that every execute step completes with the code
of its first failing check (R112), and NOP, whose checks never fail (R118). -/

namespace Sys2Proof.Machine

open Sys2Proof.Safety

/-! ### Completion (R112) -/

/-- Settles O38: where the checks pass the effect completes with OK, and where one fails its code alone is reported. -/
theorem firstFailingCheckIsReportedAlone : Obligations.FirstFailingCheckIsReportedAlone := by
  refine ⟨fun i s => ?_, illegal_next⟩
  by_cases hc : codeOf i s = 0
  · exact ⟨_, exec_ok i s hc, hc.symm, fun hne => absurd hc hne⟩
  · exact ⟨_, exec_rejected i s hc, rfl, fun _ => rfl⟩

/-! ### Issue (R110) -/

theorem memWrite_cmd (s : State) (v : Word) : memWrite 0x004 v s = guardedWrite (issue v) s := rfl

/-- Settles O9: a CMD write is guarded by BUSY, and CMD is no output, so it reads its value while BUSY is 1. -/
theorem acceptedCommandWriteIssues : Obligations.AcceptedCommandWriteIssues := by
  intro s v hheld
  rw [memWrite_cmd]
  refine ⟨fun hidle => ?_, fun hbusy => ?_⟩
  · rw [guardedWrite_idle _ s hheld hidle]
    exact ⟨rfl, memRead_of_not_output 0x004 _ rfl⟩
  · rw [guardedWrite_busy _ s hheld hbusy]
    rfl

/-! ### NOP (R118) -/

/-- No check of NOP can fail: neither LEN nor UNIT_WIDTH is checked (R94). -/
theorem codeOf_nop (s : State) : codeOf .nop s = 0 := by
  simp [codeOf, lenInRange, needsUnitWidth]

theorem exec_nop (s : State) : exec .nop s = .next (complete .ok s) := exec_ok .nop s (codeOf_nop s)

/-- Whatever the code, a word with a reserved bit set is illegal (R93). -/
theorem reservedBitsAreIllegal (op : BitVec 4) : ReservedBitsAreIllegal op :=
  fun s v hm _ hrsvd => illegalCommandReportsAndChangesNothing s v hm (.inl hrsvd)

@[simp] theorem flagBit_false (k : Nat) : flagBit false k = 0 := rfl

/-- A packed flag is the bit at its position. -/
theorem flagBit_getElem (b : Bool) (k i : Nat) (hi : i < 32) : (flagBit b k)[i] = (b && decide (k = i)) := by
  cases b
  · simp
  · have hword : flagBit true k = BitVec.twoPow 32 k := (BitVec.twoPow_eq 32 k).symm
    simp [hword, BitVec.getElem_twoPow, eq_comm]

/-- STATUS bit 2 is ERR (R23). -/
theorem statusWord_getLsbD_err (s : State) : (statusWord s).getLsbD 2 = s.err := by
  simp [statusWord, flagBit_getElem]

/-- STATUS bit 3 is WERR (R23). -/
theorem statusWord_getLsbD_werr (s : State) : (statusWord s).getLsbD 3 = s.werr := by
  simp [statusWord, flagBit_getElem]

/-- A completion with OK leaves DONE and, as they were, ERR and WERR in STATUS (R114). -/
theorem statusWord_complete_ok (s : State) :
    statusWord (complete .ok s) = flagBit true 1 ||| flagBit s.err 2 ||| flagBit s.werr 3 := by
  simp [statusWord, ResultCode.bits]

theorem memRead_status (s : State) : memRead 0x008 s = statusWord s := memRead_of_not_output 0x008 s rfl

/-- Settles O30: NOP completes with OK from every state; the example's STATUS follows from the ERR and WERR bits. -/
theorem nopCompletesWithoutEffect : Obligations.NopCompletesWithoutEffect := by
  refine ⟨exec_nop, by decide, reservedBitsAreIllegal 0, fun s t hs ht => ?_⟩
  cases (exec_nop s).symm.trans ht
  rw [memRead_status] at hs ⊢
  have herr : s.err = true := by rw [← statusWord_getLsbD_err, hs]; rfl
  have hwerr : s.werr = false := by rw [← statusWord_getLsbD_werr, hs]; rfl
  rw [statusWord_complete_ok, herr, hwerr]
  rfl

end Sys2Proof.Machine
end

section
/-! SUPPORT. CRC: its one check is that LEN is at most 128, and its effect is on RESULT alone (R131). -/

namespace Sys2Proof.Machine

open Sys2Proof.Safety

/-- LEN alone is checked (R94). -/
theorem codeOf_crc (s : State) : codeOf .crc s = if s.len.toNat ≤ 128 then 0 else 2 := by
  by_cases h : s.len.toNat ≤ 128 <;> simp [codeOf, lenInRange, needsUnitWidth, h]

theorem effect_crc (c : Config) (s : State) :
    effect c .crc s = { s with result := crc c.crcTable (inBytes s s.len.toNat) } := rfl

theorem exec_crc_of_len_le {s : State} (h : s.len.toNat ≤ 128) :
    exec .crc s = .next (complete .ok { s with result := crc Config.hardware.crcTable (inBytes s s.len.toNat) }) := by
  rw [exec_ok .crc s (by rw [codeOf_crc, if_pos h]), effect_crc]

theorem exec_crc_of_len_gt {s : State} (h : 128 < s.len.toNat) : exec .crc s = .next (rejectedWith 2 s) := by
  have hcode : codeOf .crc s = 2 := by rw [codeOf_crc, if_neg (Nat.not_le.mpr h)]
  rw [exec_rejected .crc s (by rw [hcode]; decide), hcode]

/-- Where LEN is the in-range number `n`, RESULT is the CRC of the first `n` input bytes. -/
theorem result_of_exec_crc {s t : State} {n : Nat} (hn : s.len.toNat = n) (hle : n ≤ 128)
    (ht : exec .crc s = .next t) : t.result = crc Config.hardware.crcTable (inBytes s n) := by
  subst hn
  cases (exec_crc_of_len_le hle).symm.trans ht
  rfl

/-- The worked example of R131 (V-CRC-3). -/
theorem crc_example : crc Config.hardware.crcTable [0x93, 0xFF, 0x24, 0x62, 0x6A] = 0xC8 := by decide

/-- Settles O31, from the two answers of CRC by LEN; the corner case LEN 0 and the example are its RESULT at LEN 0
and 5. -/
theorem crcWritesResult : Obligations.CrcWritesResult := by
  refine ⟨fun s => exec_crc_of_len_le, fun s => exec_crc_of_len_gt, by decide, reservedBitsAreIllegal 1,
    fun s t hlen ht => ?_, fun s t hlen hin ht => ?_⟩
  · have hn : s.len.toNat = 0 := by rw [hlen]; rfl
    exact result_of_exec_crc hn (by decide) ht
  · have hn : s.len.toNat = 5 := by rw [hlen]; rfl
    rw [result_of_exec_crc hn (by decide) ht, hin, crc_example]

end Sys2Proof.Machine
end

section
/-! SUPPORT. FRAME: its one check is that LEN is at most 112, and its effect is to store the frame of the input (R143);
the frame of the empty payload (R144). -/

namespace Sys2Proof.Machine

open Sys2Proof.Safety

/-! ### What storing a frame leaves (R143) -/

/-- The last byte of a stored frame, its CRC, is the one RESULT takes. -/
theorem storeFrame_byteAt_last {f : List Byte} {n : Nat} (s : State) (hf : f.length = n + 1) :
    byteAt (storeFrame f s) (outBufBase + n) = f.getLastD 0 := by
  have hbyte : byteAt (storeFrame f s) (outBufBase + n) = f[n] :=
    byteAt_storeBytes_inside outBufBase f s n (by omega)
  rw [hbyte, List.getLastD_eq_getLast?, List.getLast?_eq_getElem?]
  simp [hf]

theorem storeFrame_outLen_toNat {f : List Byte} (s : State) (hf : f.length < 256) :
    (storeFrame f s).outLen.toNat = f.length := by
  rw [storeFrame_outLen, BitVec.toNat_ofNat, Nat.mod_eq_of_lt hf]

/-! ### The two answers of FRAME (R94, R112) -/

/-- LEN alone is checked (R94). -/
theorem codeOf_frame (s : State) : codeOf .frame s = if s.len.toNat ≤ 112 then 0 else 2 := by
  by_cases h : s.len.toNat ≤ 112 <;> simp [codeOf, lenInRange, needsUnitWidth, h]

theorem effect_frame (c : Config) (s : State) :
    effect c .frame s = storeFrame (frame c.crcTable (inBytes s s.len.toNat)) s := rfl

theorem exec_frame_of_len_le {s : State} (h : s.len.toNat ≤ 112) :
    exec .frame s =
      .next (complete .ok (storeFrame (frame Config.hardware.crcTable (inBytes s s.len.toNat)) s)) := by
  rw [exec_ok .frame s (by rw [codeOf_frame, if_pos h]), effect_frame]

theorem exec_frame_of_len_gt {s : State} (h : 112 < s.len.toNat) : exec .frame s = .next (rejectedWith 2 s) := by
  have hcode : codeOf .frame s = 2 := by rw [codeOf_frame, if_neg (Nat.not_le.mpr h)]
  rw [exec_rejected .frame s (by rw [hcode]; decide), hcode]

/-! ### The worked frames (R143, R144) -/

theorem frame_nil : frame Config.hardware.crcTable [] = [0x8F, 0xCD] := by decide

/-- The length byte of the longest payload is the largest byte (R145). -/
theorem frame_headD_of_length_max (T : Vector Byte 256) {p : List Byte} (hp : p.length = 112) :
    (frame T p).headD 0 = 0xFF := by
  have hhead : (frame T p).headD 0 = lengthByte p := rfl
  rw [hhead, lengthByte, hp]
  rfl

/-- The worked example of R143. -/
theorem frame_example :
    frame Config.hardware.crcTable [0x24, 0x62, 0x6A] = [0x92, 0x24, 0x62, 0x6A, 0x3C] := by decide

/-- Settles O32: in range the completed state is the one with the frame stored in OUT_BUF, whose `n + 2` bytes are all
that storage changes; above the range FRAME is rejected. -/
theorem frameWritesOutBuf : Obligations.FrameWritesOutBuf := by
  refine ⟨fun s hle => ?_, fun s => exec_frame_of_len_gt, by decide, reservedBitsAreIllegal 2, frame_nil,
    fun p => frame_headD_of_length_max _, frame_example⟩
  refine ⟨_, exec_frame_of_len_le hle, ?_⟩
  have hlength : (frame Config.hardware.crcTable (inBytes s s.len.toNat)).length = s.len.toNat + 2 := by
    rw [frame_length, ← inputBytes_eq, inputBytes_length]
  generalize frame Config.hardware.crcTable (inBytes s s.len.toNat) = f at hlength ⊢
  refine ⟨?bytes, ?outLen, ?result, fun a ha => ?outside, rfl⟩
  case bytes =>
    rw [← hlength]
    exact storeFrame_bytesAt f s
  case outLen =>
    rw [← hlength]
    exact storeFrame_outLen_toNat s (by omega)
  case result => exact (storeFrame_byteAt_last s hlength).symm
  case outside =>
    rw [← hlength] at ha
    exact storeFrame_byteAt f s a ha

/-- Settles O33: with LEN 0 FRAME stores the frame of the empty payload. -/
theorem emptyPayloadIsFramed : Obligations.EmptyPayloadIsFramed := by
  refine ⟨rfl, frame_nil, fun s hlen => ?_⟩
  have hexec : exec .frame s = .next (complete .ok (storeFrame [0x8F, 0xCD] s)) := by
    rw [exec_frame_of_len_le (by simp [hlen]), hlen, ← frame_nil]
    rfl
  exact ⟨_, hexec, rfl, rfl, rfl, storeFrame_bytesAt _ s⟩

end Sys2Proof.Machine
end

section
/-! SUPPORT. ENCODE: its checks are that LEN is 1 to 128 and then that UNIT_WIDTH is not 0, and its effect is to store
the pulses of the input (R157). -/

namespace Sys2Proof.Machine

open Sys2Proof.Safety

/-! ### What storing pulses leaves (R157, R159) -/

/-- Durations of 32 bits are stored whole. -/
theorem storePulses_durations {d : List Nat} (s : State) (hd : ∀ x ∈ d, x < 2 ^ 32) :
    (pulsesAt (storePulses d s) d.length).map BitVec.toNat = d := by
  rw [storePulses_pulsesAt, map_toNat_ofNat d hd]

theorem storePulses_pulseCount_toNat {d : List Nat} (s : State) (hd : d.length < 2 ^ 16) :
    (storePulses d s).pulseCount.toNat = d.length := by
  rw [storePulses_pulseCount, BitVec.toNat_ofNat, Nat.mod_eq_of_lt hd]

theorem inBytes_length (s : State) (n : Nat) : (inBytes s n).length = n := bytesAt_length s 0x100 n

/-- A width of 16 bits and at most 128 bytes give pulses that fit their count and their entries (R159). -/
theorem pulseEncode_half_fits (stopEach : Bool) {bs : List Byte} (w : Half) (hb : bs.length ≤ 128) :
    (pulseEncode stopEach bs w.toNat).length < 2 ^ 16 ∧ ∀ x ∈ pulseEncode stopEach bs w.toNat, x < 2 ^ 32 := by
  obtain ⟨hlength, hfits⟩ := pulseEncode_fits stopEach bs w.toNat hb (Nat.le_of_lt_succ w.isLt)
  exact ⟨by omega, hfits⟩

/-! ### The three answers of ENCODE (R94, R111, R112) -/

/-- LEN is checked before UNIT_WIDTH (R111). -/
theorem codeOf_encode (s : State) :
    codeOf .encode s = if 1 ≤ s.len.toNat ∧ s.len.toNat ≤ 128 then (if s.unitWidth = 0 then 3 else 0) else 2 := by
  by_cases hlen : 1 ≤ s.len.toNat ∧ s.len.toNat ≤ 128
  · simp [codeOf, lenInRange, needsUnitWidth, hlen]
  · simp [codeOf, lenInRange, hlen]

theorem effect_encode (c : Config) (s : State) :
    effect c .encode s = storePulses (pulseEncode c.stopEachByte (inBytes s s.len.toNat) s.unitWidth.toNat) s := rfl

section
variable {s : State}

theorem exec_encode_of_operands (hlen : 1 ≤ s.len.toNat ∧ s.len.toNat ≤ 128) (hwidth : s.unitWidth ≠ 0) :
    exec .encode s =
      .next (complete .ok (storePulses (pulseEncode false (inBytes s s.len.toNat) s.unitWidth.toNat) s)) := by
  rw [exec_ok .encode s (by rw [codeOf_encode, if_pos hlen, if_neg hwidth]), effect_encode]
  rfl

theorem exec_encode_of_len (hlen : ¬ (1 ≤ s.len.toNat ∧ s.len.toNat ≤ 128)) :
    exec .encode s = .next (rejectedWith 2 s) := by
  have hcode : codeOf .encode s = 2 := by rw [codeOf_encode, if_neg hlen]
  rw [exec_rejected .encode s (by rw [hcode]; decide), hcode]

theorem exec_encode_of_unitWidth_zero (hlen : 1 ≤ s.len.toNat ∧ s.len.toNat ≤ 128) (hwidth : s.unitWidth = 0) :
    exec .encode s = .next (rejectedWith 3 s) := by
  have hcode : codeOf .encode s = 3 := by rw [codeOf_encode, if_pos hlen, if_pos hwidth]
  rw [exec_rejected .encode s (by rw [hcode]; decide), hcode]

end

/-! ### The worked pulses (R150, R157) -/

/-- The empty input has the stop symbol alone. -/
theorem pulseEncode_nil (stopEach : Bool) (w : Nat) : pulseEncode stopEach [] w = [w] := rfl

/-- The worked example of R157: nine symbols 0 and the stop symbol. -/
theorem pulseEncode_example : pulseEncode false [0x00] 417 = [3753, 417] := by decide

/-- Settles O34: in range the completed state is the one with the pulses stored in PULSE_BUF, which fit it whole; a
failing check rejects ENCODE with the code of the first one. -/
theorem encodeWritesPulseBuf : Obligations.EncodeWritesPulseBuf := by
  refine ⟨fun s hlo hhi hwidth => ?_, fun s hlen => exec_encode_of_len (by omega),
    fun s hlo hhi => exec_encode_of_unitWidth_zero ⟨hlo, hhi⟩, by decide, reservedBitsAreIllegal 3,
    pulseEncode_nil false, pulseEncode_example⟩
  refine ⟨_, _, exec_encode_of_operands ⟨hlo, hhi⟩ hwidth, rfl, ?_⟩
  have hin : (inBytes s s.len.toNat).length ≤ 128 := by rwa [inBytes_length]
  obtain ⟨hlength, hfits⟩ := pulseEncode_half_fits false s.unitWidth hin
  generalize pulseEncode false (inBytes s s.len.toNat) s.unitWidth.toNat = d at hlength hfits ⊢
  refine ⟨?count, ?durations, fun a ha => ?outside, rfl⟩
  case count => exact storePulses_pulseCount_toNat s hlength
  case durations => exact storePulses_durations s hfits
  case outside => exact storePulses_byteAt d s a ha

end Sys2Proof.Machine
end

section
/-! SUPPORT. EXPAND: its one check is that LEN is at most 111, and its effect is to write each of the sixteen buckets,
a valid one with its results and its frame and a skipped one with zeros (R174, R175). -/

namespace Sys2Proof.Machine

open Sys2Proof.Safety

/-! ### The delay codes (R171) -/

/-- Settles O46, by looking up the sixteen entries of DELAY_TABLE. -/
theorem delayCodeOfEachBucket : Obligations.DelayCodeOfEachBucket := by
  refine fun i => ⟨rfl, ?_⟩
  revert i
  decide

/-! ### What EXPAND leaves of one bucket (R174, R175) -/

theorem bucketValid_eq_false_iff (t i : Nat) : bucketValid t i = false ↔ ¬ (16 - i) * 100 ≤ t := by
  rw [← bucketValid_iff, Bool.not_eq_true]

theorem slotTime_of_skipped {t : Nat} {i : Fin 16} (h : bucketValid t i = false) : slotTime t i = 0 := by
  rw [slotTime, h, if_neg Bool.false_ne_true]

theorem slotLen_of_skipped {t : Nat} {i : Fin 16} (n : Nat) (h : bucketValid t i = false) : slotLen t n i = 0 := by
  rw [slotLen, h, if_neg Bool.false_ne_true]

theorem expandEffect_expValid_getLsbD (c : Config) (s : State) (i : Fin 16) :
    (expandEffect c s).expValid.getLsbD i.val = bucketValid s.absTime.toNat i.val :=
  validMask_getLsbD _ i

/-- The slot of a valid bucket holds the frame of its delay code and the raw command (R173). -/
theorem expandEffect_bytesAt_slot (c : Config) {s : State} {i : Fin 16} (hlen : s.len.toNat ≤ 111)
    (hv : bucketValid s.absTime.toNat i.val = true) :
    bytesAt (expandEffect c s) (expFrameBase i.val) (s.len.toNat + 3) =
      slotFrame c.crcTable (inBytes s s.len.toNat) i := by
  have h := storeSlots_bytesAt c s.absTime.toNat (inputBytes s) s i (by rwa [inputBytes_length]) hv
  rwa [inputBytes_length] at h

/-- A byte of a slot keeps its value past the frame, and everywhere where the bucket is skipped: no other bucket's frame
reaches into the slot (R175). -/
theorem expandEffect_byteAt_slot (c : Config) {s : State} {i : Fin 16} {k : Nat} (hlen : s.len.toNat ≤ 111)
    (hk : k < 0x80) (h : s.len.toNat + 3 ≤ k ∨ bucketValid s.absTime.toNat i.val = false) :
    byteAt (expandEffect c s) (expFrameBase i.val + k) = byteAt s (expFrameBase i.val + k) := by
  refine storeSlots_byteAt_outside c _ (inputBytes s) s _ (fun j => ?_)
  rw [inputBytes_length]
  by_cases hji : j = i
  · subst hji
    exact .inr (h.imp_left fun hpast => by omega)
  · have hne : j.val ≠ i.val := fun hval => hji (Fin.ext hval)
    simp only [expFrameBase]
    omega

/-- A byte outside the sixteen slots keeps its value (R116). -/
theorem expandEffect_byteAt_outside (c : Config) {s : State} {a : Nat} (hlen : s.len.toNat ≤ 111)
    (ha : a < 0x800 ∨ 0x1000 ≤ a) : byteAt (expandEffect c s) a = byteAt s a := by
  refine storeSlots_byteAt_outside c _ (inputBytes s) s a (fun j => ?_)
  rw [inputBytes_length]
  simp only [expFrameBase]
  omega

/-- EXPAND's effect changes storage and the EXP registers alone (R116). -/
theorem expandEffect_eq (c : Config) (s : State) :
    expandEffect c s = { s with
      mem := (expandEffect c s).mem, expTime := (expandEffect c s).expTime
      expLen := (expandEffect c s).expLen, expValid := (expandEffect c s).expValid } := by
  simp only [expandEffect]
  rw [storeSlots_eq]

/-- What bucket `i` holds in `t` after EXPAND on `s`: a valid bucket its time, length, mask bit and frame, with the
slot's bytes past the frame as they were (R174); a skipped bucket zeros, with all bytes of its slot as they were
(R175). -/
def BucketExpanded (c : Config) (s t : State) (i : Fin 16) : Prop :=
  if (16 - i.val) * 100 ≤ s.absTime.toNat then
    t.expTime[i].toNat = s.absTime.toNat - (16 - i.val) * 100 ∧ t.expLen[i].toNat = s.len.toNat + 3 ∧
    t.expValid.getLsbD i.val = true ∧
    bytesAt t (expFrameBase i.val) (s.len.toNat + 3) = slotFrame c.crcTable (inBytes s s.len.toNat) i ∧
    (∀ k, s.len.toNat + 3 ≤ k → k < 0x80 →
      byteAt t (expFrameBase i.val + k) = byteAt s (expFrameBase i.val + k))
  else
    t.expTime[i] = 0 ∧ t.expLen[i] = 0 ∧ t.expValid.getLsbD i.val = false ∧
    (∀ k, k < 0x80 → byteAt t (expFrameBase i.val + k) = byteAt s (expFrameBase i.val + k))

theorem bucketExpanded_expandEffect (c : Config) {s : State} (hlen : s.len.toNat ≤ 111) (i : Fin 16) :
    BucketExpanded c s (expandEffect c s) i := by
  simp only [BucketExpanded, expandEffect_expTime, expandEffect_expLen, expandEffect_expValid_getLsbD]
  split
  next htime =>
    have hv := (bucketValid_iff _ _).mpr htime
    exact ⟨slotTime_toNat _ i s.absTime.isLt hv, slotLen_toNat _ _ i hlen hv, hv,
      expandEffect_bytesAt_slot c hlen hv, fun _ hpast hk => expandEffect_byteAt_slot c hlen hk (.inl hpast)⟩
  next htime =>
    have hv := (bucketValid_eq_false_iff _ _).mpr htime
    exact ⟨slotTime_of_skipped hv, slotLen_of_skipped _ hv, hv,
      fun _ hk => expandEffect_byteAt_slot c hlen hk (.inr hv)⟩

/-! ### The two answers of EXPAND (R94, R112) -/

/-- LEN alone is checked (R94). -/
theorem codeOf_expand (s : State) : codeOf .expand s = if s.len.toNat ≤ 111 then 0 else 2 := by
  by_cases h : s.len.toNat ≤ 111 <;> simp [codeOf, lenInRange, needsUnitWidth, h]

theorem exec_expand_of_len_le {s : State} (h : s.len.toNat ≤ 111) :
    exec .expand s = .next (complete .ok (expandEffect Config.hardware s)) :=
  exec_ok .expand s (by rw [codeOf_expand, if_pos h])

theorem exec_expand_of_len_gt {s : State} (h : 111 < s.len.toNat) : exec .expand s = .next (rejectedWith 2 s) := by
  have hcode : codeOf .expand s = 2 := by rw [codeOf_expand, if_neg (Nat.not_le.mpr h)]
  rw [exec_rejected .expand s (by rw [hcode]; decide), hcode]

/-- A completed EXPAND differs from the state before it in storage, the EXP registers and the completion (R114). -/
theorem complete_expandEffect_eq (c : Config) (s : State) :
    complete .ok (expandEffect c s) = { s with
      mem := (expandEffect c s).mem, expTime := (expandEffect c s).expTime, expLen := (expandEffect c s).expLen
      expValid := (expandEffect c s).expValid, errCode := 0, busy := false, done := true, engine := .idle } := by
  rw [expandEffect_eq]
  rfl

/-! ### The worked bucket (R174) -/

theorem slotTime_example : slotTime 12300 0 = 0x000029CC := by decide

theorem slotFrame_example :
    slotFrame Config.hardware.crcTable [0x24, 0x62, 0x6A] 0 = [0x93, 0xFF, 0x24, 0x62, 0x6A, 0xC8] := by decide

/-- Settles O37: in range the completed state is the one EXPAND's effect leaves, which says of each bucket what R174
does; above the range EXPAND is rejected. -/
theorem expandWritesSlots : Obligations.ExpandWritesSlots := by
  refine ⟨fun s hlen => ?answer, fun s => exec_expand_of_len_gt, by decide, reservedBitsAreIllegal 5,
    fun s t htime hlen hin ht => ?worked⟩
  case answer =>
    exact ⟨_, exec_expand_of_len_le hlen, bucketExpanded_expandEffect Config.hardware hlen,
      fun _ => expandEffect_byteAt_outside Config.hardware hlen, complete_expandEffect_eq Config.hardware s⟩
  case worked =>
    have hn : s.len.toNat = 3 := by rw [hlen]; rfl
    have ht' : s.absTime.toNat = 12300 := by rw [htime]; rfl
    have hle : s.len.toNat ≤ 111 := by omega
    cases (exec_expand_of_len_le hle).symm.trans ht
    have hbytes := expandEffect_bytesAt_slot (i := 0) Config.hardware hle (by rw [ht']; decide)
    rw [hn, hin, slotFrame_example] at hbytes
    refine ⟨?_, hbytes⟩
    rw [complete_expTime, ← slotTime_example, ← ht']
    exact expandEffect_expTime Config.hardware s 0

end Sys2Proof.Machine
end

section
/-! SUPPORT. Writes while BUSY is 1: the offsets whose writes are dropped, and what a dropped write leaves (R192). -/

namespace Sys2Proof.Machine

open Sys2Proof.Safety

/-- An offset from 0x100 to 0x17F names a word of IN_BUF. -/
theorem locate_inBuf {off : Offset} (hlo : 0x100 ≤ wordOffset off) (hhi : wordOffset off < 0x180) :
    ∃ m, locate off = .inBuf m := by
  have hword : wordOffset off = 0x100 + 4 * ((wordOffset off - 0x100) / 4) := by
    have hmod := wordOffset_mod off
    omega
  exact ⟨⟨(wordOffset off - 0x100) / 4, by omega⟩, locate_of_offset off _ Loc.noConfusion hword⟩

/-- CMD, LEN, UNIT_WIDTH, ABS_TIME and the words of IN_BUF are locations whose writes are dropped during BUSY. -/
theorem droppedWhileBusy_locate {off : Offset}
    (h : wordOffset off = 0x004 ∨ wordOffset off = 0x010 ∨ wordOffset off = 0x014 ∨ wordOffset off = 0x018 ∨
      (0x100 ≤ wordOffset off ∧ wordOffset off < 0x180)) :
    droppedWhileBusy (locate off) = true := by
  rcases h with hcmd | hlen | hwidth | htime | ⟨hlo, hhi⟩
  · rw [locate_of_offset off .cmd Loc.noConfusion hcmd, droppedWhileBusy]
  · rw [locate_of_offset off .len Loc.noConfusion hlen, droppedWhileBusy]
  · rw [locate_of_offset off .unitWidth Loc.noConfusion hwidth, droppedWhileBusy]
  · rw [locate_of_offset off .absTime Loc.noConfusion htime, droppedWhileBusy]
  · obtain ⟨m, hm⟩ := locate_inBuf hlo hhi
    rw [hm, droppedWhileBusy]

/-- With BUSY 1 and reset not asserted, a write to a location of R192 is dropped, whatever is written. -/
theorem writeLoc_of_busy {l : Loc} {s : State} (hl : droppedWhileBusy l = true) (hheld : s.resetHeld = false)
    (hbusy : s.busy = true) (v : Word) : writeLoc l v s = dropWrite s := by
  cases l with
  | cmd | len | unitWidth | absTime => rw [writeLoc, guardedWrite_busy _ s hheld hbusy]
  | inBuf m => rw [writeLoc, guardedWrite_busy _ s hheld hbusy, hheld, if_neg Bool.false_ne_true]
  | id | status | irqEn | result | outLen | pulseCount | expValid | expTime _ | expLen _ | outBuf _ | expFrame _ _
  | pulseBuf _ | reserved => cases hl

/-- Settles O10: each of these offsets names a location whose write is dropped, and a dropped write sets WERR alone. -/
theorem writesDuringBusyAreDropped : Obligations.WritesDuringBusyAreDropped :=
  fun _ _ v hheld hbusy hoff => writeLoc_of_busy (droppedWhileBusy_locate hoff) hheld hbusy v

end Sys2Proof.Machine
end

section
/-! SUPPORT. The state after reset: what the host reads of it, and CRC_TABLE against its generator (R9, R211, R212). -/

namespace Sys2Proof.Machine

/-- CRC_TABLE as R9 prints it is what the generator of R9 leaves: the ROM's 256 entries, each evaluated. -/
theorem tableAt_hardware (i : Byte) : tableAt Config.hardware.crcTable i = crcTableEntry i := by
  revert i
  decide +kernel

/-- BUSY is 0 at reset, so a read gives what its location holds (R78). -/
theorem memRead_reset {off : Offset} {l : Loc} (h : locate off = l) :
    memRead off State.reset = locValue l State.reset := by
  rw [memRead_of_idle off State.reset rfl, h]

/-- Every EXP_TIME and every EXP_LEN is 0 at reset (R37, R212). -/
theorem reset_slots (i : Fin 16) : State.reset.expTime[i] = 0 ∧ State.reset.expLen[i] = 0 := by
  simp [State.reset]

/-- Settles O28: each readable register's offset names its location, whose reset value is the stated one. -/
theorem resetLeavesTheStatedValues : Obligations.ResetLeavesTheStatedValues :=
  ⟨memRead_reset (l := .id) rfl, memRead_reset (l := .cmd) rfl, memRead_reset (l := .status) rfl,
    rfl, rfl, rfl, rfl, rfl, memRead_reset (l := .irqEn) rfl, memRead_reset (l := .len) rfl,
    memRead_reset (l := .unitWidth) rfl, memRead_reset (l := .absTime) rfl, memRead_reset (l := .result) rfl,
    memRead_reset (l := .outLen) rfl, memRead_reset (l := .pulseCount) rfl, memRead_reset (l := .expValid) rfl,
    reset_slots, fun _ => rfl, rfl, rfl, tableAt_hardware, rfl⟩

end Sys2Proof.Machine
end

section
/-! SUPPORT. The two directions of the opcode map: a command word is its fields RSVD and OP joined, so a word decodes to
an operation exactly when it is the word the encoder gives (R90 to R92). -/

namespace Sys2Proof.Machine

/-- A command word is its two fields, RSVD above OP (R90). -/
theorem commandRsvd_append_commandOp (v : Word) : (commandRsvd v ++ commandOp v : Word) = v := by
  refine BitVec.eq_of_toNat_eq ?_
  rw [commandRsvd, commandOp, BitVec.toNat_append, BitVec.extractLsb'_toNat, BitVec.extractLsb'_toNat,
    Nat.shiftRight_eq_div_pow, Nat.shiftRight_zero, Nat.mod_eq_of_lt (by omega),
    ← Nat.shiftLeft_add_eq_or_of_lt (by omega), Nat.shiftLeft_eq]
  omega

theorem commandRsvd_opWord (op : BitVec 4) : commandRsvd (opWord op) = 0 := by
  revert op
  decide

theorem commandOp_opWord (op : BitVec 4) : commandOp (opWord op) = op := by
  revert op
  decide

/-- The word of an OP field is the one with that OP and RSVD 0. -/
theorem eq_opWord_iff (v : Word) (op : BitVec 4) :
    v = opWord op ↔ reservedClear v = true ∧ commandOp v = op := by
  rw [reservedClear, beq_iff_eq]
  constructor
  · rintro rfl
    exact ⟨commandRsvd_opWord op, commandOp_opWord op⟩
  · rintro ⟨hrsvd, hop⟩
    rw [← commandRsvd_append_commandOp v, hrsvd, hop, opWord]

/-- Settles O1: both sides say that RSVD is 0 and that OP is the operation's code. -/
theorem decodeAndEncodeAgree : Obligations.DecodeAndEncodeAgree :=
  fun v i => (decode_eq_ok_iff v i).trans (eq_opWord_iff v (opcode i)).symm

/-- Settles O3, by decoding the ten words. -/
theorem tableWordsDecode : Obligations.TableWordsDecode := by
  unfold Obligations.TableWordsDecode
  decide

end Sys2Proof.Machine
end

section
/-! SUPPORT. Which agent moves: when the next move is the engine's execute step, the first pending thing, or waiting
(R80, R113, R214), and that this hardware is the configured machine under its own
configuration (R8). -/

namespace Sys2Proof.Machine

/-! ### The next move by turn, engine and pending list (log 4) -/

theorem turnOf_eq (s : State) : turnOf s = s.turns.headD .engine := by
  rw [turnOf]
  cases s.turns <;> rfl

theorem nextMove_of_run {s : State} {v : Word} (hrun : s.engine = .run v)
    (hturn : s.turns.headD .engine = .engine ∨ s.pending = []) : nextMove s = .execute v := by
  rw [← turnOf_eq] at hturn
  rw [nextMove, hrun]
  rcases hturn with hturn | hnone
  · rw [hturn]
  · rw [hnone]
    cases turnOf s <;> rfl

theorem nextMove_of_pending {s : State} {x : Input} {rest : List Input} (hpending : s.pending = x :: rest)
    (hturn : s.engine = .idle ∨ s.turns.headD .engine = .host) : nextMove s = .input x := by
  rw [← turnOf_eq] at hturn
  rw [nextMove, hpending]
  rcases hturn with hidle | hturn
  · rw [hidle]
    cases turnOf s <;> rfl
  · rw [hturn]
    cases s.engine <;> rfl

theorem nextMove_of_nothing {s : State} (hidle : s.engine = .idle) (hnone : s.pending = []) : nextMove s = .idle := by
  rw [nextMove, hidle, hnone]
  cases turnOf s <;> rfl

/-- While a word runs, the next move is its execute step or costs the host one of the turns listed. -/
theorem nextMove_of_running {s : State} {v : Word} (hrun : s.engine = .run v) :
    nextMove s = .execute v ∨ ∃ x rest, nextMove s = .input x ∧ s.turns = .host :: rest := by
  cases hturns : s.turns with
  | nil => exact .inl (nextMove_of_run hrun (.inl (by rw [hturns]; rfl)))
  | cons a rest =>
    cases a with
    | engine => exact .inl (nextMove_of_run hrun (.inl (by rw [hturns]; rfl)))
    | host =>
      cases hpending : s.pending with
      | nil => exact .inl (nextMove_of_run hrun (.inr hpending))
      | cons x xs => exact .inr ⟨x, rest, nextMove_of_pending hpending (.inr (by rw [hturns]; rfl)), rfl⟩

/-! ### The step of each move -/

theorem stepBy_of_execute (execute : Instr → State → Result) {s : State} {v : Word} {i : Instr}
    (hmove : nextMove s = .execute v) (hdecode : decode v = .ok i) : stepBy execute s = execute i (passTurn s) := by
  simp only [stepBy, hmove, hdecode]

theorem step_of_idle {s : State} (hmove : nextMove s = .idle) : step s = .next (passTurn s) := by
  simp only [step, stepBy, hmove]

/-- Settles O5: the next move is the execute step of the issued word, which decodes. -/
theorem stepRunsDecodedInstruction : Obligations.StepRunsDecodedInstruction := fun _ _ _ hrun hturn hdecode =>
  stepBy_of_execute exec (nextMove_of_run hrun hturn) hdecode

/-- Settles O6: the next move is the first pending input, on the state with it and the turn taken. -/
theorem stepPerformsFirstPendingInput : Obligations.StepPerformsFirstPendingInput := by
  intro s x rest hpending hturn
  rw [step_of_input (nextMove_of_pending hpending hturn), takeInput, hpending, List.tail_cons]

/-- Settles O7: neither agent has a move. -/
theorem idleBlockWaits : Obligations.IdleBlockWaits := fun _ hidle hnone =>
  step_of_idle (nextMove_of_nothing hidle hnone)

theorem decode_of_decodeTableWord {nbits w : Nat} {i : Instr} (h : decodeTableWord nbits w = some i) :
    decode (BitVec.ofNat 32 (w % 2 ^ nbits)) = .ok i := by
  unfold decodeTableWord at h
  split at h
  next =>
    cases hd : decode (BitVec.ofNat 32 (w % 2 ^ nbits)) with
    | ok j =>
      rw [hd] at h
      cases h
      rfl
    | error e =>
      rw [hd] at h
      cases h
  next => cases h

/-- Settles O8: `withFetchWord` leaves the word running with the next turn the engine's, and that turn is used up. -/
theorem fetchedCommandRunsNext : Obligations.FetchedCommandRunsNext := fun _ _ _ _ h =>
  stepBy_of_execute exec (nextMove_of_run rfl (.inl rfl)) (decode_of_decodeTableWord h)

/-! ### The configured machine (R8) -/

theorem exec_eq_execWith (i : Instr) (s : State) : exec i s = execWith Config.hardware i s := by
  rw [exec_eq_executeStep, execWith_eq_executeStep]

theorem step_eq_stepWith (s : State) : step s = stepWith Config.hardware s := by
  have hexec : exec = execWith Config.hardware := funext fun i => funext (exec_eq_execWith i)
  rw [step, stepWith, hexec]

/-- Settles O57: every arm of exec is the configured one, and the next move does not depend on the configuration. -/
theorem hardwareIsTheConfiguredInstance : Obligations.HardwareIsTheConfiguredInstance :=
  ⟨exec_eq_execWith, step_eq_stepWith, fun c _ _ _ hrun hturn hdecode =>
    stepBy_of_execute (execWith c) (nextMove_of_run hrun hturn) hdecode⟩

end Sys2Proof.Machine
end

section
/-! SUPPORT. DONE and irq by the cause of a step: what an execute step, a host write and reset leave in DONE and IE, and
that no other step changes them (R25, R29, R196, R197). -/

namespace Sys2Proof.Machine

open Sys2Proof.Safety

@[simp] theorem effect_ie (c : Config) (i : Instr) (s : State) : (effect c i s).ie = s.ie := by rw [effect_eq]

/-! ### Completion (R196) -/

/-- Settles O17: every completion sets DONE, and no operation changes IE. -/
theorem completionAssertsIrqWhenEnabled : Obligations.CompletionAssertsIrqWhenEnabled := by
  refine ⟨fun i s t ht => ?_, fun s t ht => ?_⟩
  · rcases exec_cases i s t ht with ⟨-, rfl⟩ | ⟨-, rfl⟩
    · rw [irq, complete_done, Bool.true_and, complete_ie, effect_ie]
    · rfl
  · cases (illegal_next s).symm.trans ht
    rfl

/-! ### DONE and IE after a step -/

section
variable {s t : State} (h : step s = .next t)
include h

theorem done_ie_of_execute (hx : AboutToExecute s) : t.done = true ∧ t.ie = s.ie := by
  rcases step_of_execute hx with ⟨i, hs⟩ | ⟨code, -, hs⟩
  · cases hs.symm.trans h
    exact ⟨rfl, effect_ie _ i _⟩
  · cases hs.symm.trans h
    exact ⟨rfl, rfl⟩

/-- R25, R29: a host write clears DONE where it is an accepted CMD write or writes 1 to STATUS bit 1, and sets IE at
IRQ_EN. -/
theorem done_ie_of_write {l : Loc} {v : Word} (hw : AboutToWrite s l v) :
    t.done =
      (s.done && !(decide (l = .cmd) && !s.busy && !s.resetHeld) && !(decide (l = .status) && v.getLsbD 1)) ∧
    t.ie = if l = .irqEn ∧ s.resetHeld = false then v.getLsbD 0 else s.ie := by
  cases (step_of_write hw).symm.trans h
  obtain ⟨-, hdone, -, -, hie, -⟩ := writeLoc_bits l v (takeInput s)
  exact ⟨hdone, hie⟩

theorem done_of_reset (hr : AboutToReset s) : t.done = false := by
  obtain ⟨held, hs⟩ := step_of_reset hr
  cases hs.symm.trans h
  rfl

/-- Every cause of a change of DONE or IE. -/
theorem done_ie_causes :
    AboutToExecute s ∨ (∃ l v, AboutToWrite s l v) ∨ AboutToReset s ∨ (t.done = s.done ∧ t.ie = s.ie) := by
  rcases step_causes h with hx | hw | hr | ht
  · exact .inl hx
  · exact .inr (.inl hw)
  · exact .inr (.inr (.inl hr))
  · exact .inr (.inr (.inr (by rw [ht]; exact ⟨rfl, rfl⟩)))

/-- R25: DONE falls only at an accepted CMD write, at a STATUS write with bit 1 set, or at reset. -/
theorem write_or_reset_of_done_fall (hs : s.done = true) (ht : t.done = false) :
    (s.busy = false ∧ s.resetHeld = false ∧ ∃ v, AboutToWrite s .cmd v) ∨
      (∃ v, AboutToWrite s .status v ∧ v.getLsbD 1 = true) ∨ AboutToReset s := by
  rcases done_ie_causes h with hx | ⟨l, v, hw⟩ | hr | ⟨hd, -⟩
  · simp [(done_ie_of_execute h hx).1] at ht
  · have hd := (done_ie_of_write h hw).1
    rw [hs, ht, Bool.true_and, eq_comm, Bool.and_eq_false_iff] at hd
    rcases hd with hcmd | hstatus
    · obtain ⟨⟨rfl, hbusy⟩, hheld⟩ : (l = .cmd ∧ s.busy = false) ∧ s.resetHeld = false := by simpa using hcmd
      exact .inl ⟨hbusy, hheld, v, hw⟩
    · obtain ⟨rfl, hv⟩ : l = .status ∧ v.getLsbD 1 = true := by simpa using hstatus
      exact .inr (.inl ⟨v, hw, hv⟩)
  · exact .inr (.inr hr)
  · simp [hd, hs] at ht

/-- R25: DONE rises only at a completion. -/
theorem execute_of_done_rise (hs : s.done = false) (ht : t.done = true) : AboutToExecute s := by
  rcases done_ie_causes h with hx | ⟨l, v, hw⟩ | hr | ⟨hd, -⟩
  · exact hx
  · simp [(done_ie_of_write h hw).1, hs] at ht
  · simp [done_of_reset h hr] at ht
  · simp [hd, hs] at ht

/-- R29: IE falls only at an IRQ_EN write with bit 0 clear, or at reset. -/
theorem write_or_reset_of_ie_fall (hs : s.ie = true) (ht : t.ie = false) :
    (∃ v, AboutToWrite s .irqEn v ∧ v.getLsbD 0 = false) ∨ AboutToReset s := by
  rcases done_ie_causes h with hx | ⟨l, v, hw⟩ | hr | ⟨-, hi⟩
  · simp [(done_ie_of_execute h hx).2, hs] at ht
  · have hi := (done_ie_of_write h hw).2
    split at hi
    next hl =>
      obtain ⟨rfl, -⟩ := hl
      exact .inl ⟨v, hw, hi.symm.trans ht⟩
    next => simp [hi, hs] at ht
  · exact .inr hr
  · simp [hi, hs] at ht

theorem done_of_cmd_write {v : Word} (hw : AboutToWrite s .cmd v) (hbusy : s.busy = false)
    (hheld : s.resetHeld = false) : t.done = false := by
  simp [(done_ie_of_write h hw).1, hbusy, hheld]

theorem done_of_status_write {v : Word} (hw : AboutToWrite s .status v) (hv : v.getLsbD 1 = true) :
    t.done = false := by
  simp [(done_ie_of_write h hw).1, hv]

theorem ie_of_irqEn_write {v : Word} (hw : AboutToWrite s .irqEn v) (hheld : s.resetHeld = false) :
    t.ie = v.getLsbD 0 := by
  rw [(done_ie_of_write h hw).2, if_pos ⟨rfl, hheld⟩]

end

theorem irq_of_done_low {s : State} (h : s.done = false) : irq s = false := by rw [irq, h, Bool.false_and]

/-- Settles O15, from what each cause of a step leaves in DONE and that no other step changes it. -/
theorem doneChangesOnlyByTheFourCauses : Obligations.DoneChangesOnlyByTheFourCauses := fun _ _ h =>
  ⟨write_or_reset_of_done_fall h, execute_of_done_rise h, fun _ => done_of_cmd_write h, fun _ => done_of_status_write h,
    done_of_reset h, fun hx => (done_ie_of_execute h hx).1⟩

/-- Settles O18: irq is DONE and IE, so it falls where one of them does. -/
theorem irqFallsOnlyByTheFourCauses : Obligations.IrqFallsOnlyByTheFourCauses := by
  intro s t h
  refine ⟨fun hs ht => ?_, fun v hw hv => irq_of_done_low (done_of_status_write h hw hv), fun v hw hv hheld => ?_,
    fun v hw hbusy hheld => irq_of_done_low (done_of_cmd_write h hw hbusy hheld),
    fun hr => irq_of_done_low (done_of_reset h hr)⟩
  · obtain ⟨hdone, hie⟩ := Bool.and_eq_true_iff.mp hs
    rcases Bool.and_eq_false_iff.mp ht with hd | hi
    · rcases write_or_reset_of_done_fall h hdone hd with hcmd | hstatus | hr
      · exact .inr (.inr (.inl hcmd))
      · exact .inl hstatus
      · exact .inr (.inr (.inr hr))
    · rcases write_or_reset_of_ie_fall h hie hi with hirq | hr
      · exact .inr (.inl hirq)
      · exact .inr (.inr (.inr hr))
  · rw [irq, ie_of_irqEn_write h hw hheld, hv, Bool.and_false]

end Sys2Proof.Machine
end

section
/-! SUPPORT. The invariant under any configuration: which part of the state each clause speaks of, and that reset gives
every clause and every step keeps it (R8, R190, R210). -/

namespace Sys2Proof.Machine

open Sys2Proof.Safety

/-! ### At reset (R210 to R212) -/

theorem atReset_engine {s : State} (h : AtReset s) : s.engine = .idle := congrArg State.engine h

theorem atReset_busy {s : State} (h : AtReset s) : s.busy = false := congrArg State.busy h

theorem atReset_done {s : State} (h : AtReset s) : s.done = false := congrArg State.done h

theorem atReset_resetBlock (held : Bool) (s : State) : AtReset (resetBlock held s) := rfl

/-- What is not the block's own plays no part in being at reset. -/
theorem atReset_of_sameBlock {s t : State} (h : AtReset s)
    (ht : t = { s with pending := t.pending, turns := t.turns, answers := t.answers, draws := t.draws }) :
    AtReset t := by
  unfold AtReset at h
  rw [ht, h]
  rfl

theorem atReset_unsettleStorage {s : State} (h : AtReset s) : AtReset (unsettleStorage s) := by
  unfold AtReset at h
  rw [h]
  rfl

/-- At reset there is no flag to clear. -/
theorem clearFlags_of_atReset {s : State} (h : AtReset s) (v : Word) : clearFlags v s = s := by
  unfold AtReset at h
  rw [h]
  rfl

/-- No MemWrite takes hold while reset is asserted (R210). -/
theorem atReset_memWrite {s : State} (off : Offset) (v : Word) (h : AtReset s) (hheld : s.resetHeld = true) :
    AtReset (memWrite off v s) := by
  rcases memWrite_held off v s hheld with hw | ⟨-, hw⟩ | hw
  · rwa [hw]
  · rwa [hw, clearFlags_of_atReset h]
  · rw [hw]
    exact atReset_unsettleStorage h

/-! ### What each clause speaks of -/

/-- A whole frame in OUT_BUF lies within OUT_BUF. -/
theorem outBufHoldsFrame_congr {c : Config} {s t : State} (h : OutBufHoldsFrame c s) (hlen : t.outLen = s.outLen)
    (hbytes : ∀ a, 0x180 ≤ a → a < 0x200 → byteAt t a = byteAt s a) : OutBufHoldsFrame c t := by
  unfold OutBufHoldsFrame
  rw [hlen]
  refine h.imp_right fun ⟨p, hp, hframe⟩ => ⟨p, hp, ?_⟩
  have hcount : s.outLen.toNat = p.length + 2 := by
    rw [← frameOf_length c, ← hframe, bytesAt_length]
  rw [← hframe]
  refine bytesAt_congr t s _ _ fun k hk => hbytes _ ?_ ?_ <;> simp only [outBufBase] <;> omega

theorem pulsesAt_congr {s t : State} (n : Nat) (hbytes : ∀ a, 0x2000 ≤ a → byteAt t a = byteAt s a) :
    pulsesAt t n = pulsesAt s n :=
  List.map_congr_left fun j _ => wordAt_congr t s _ fun k _ => hbytes _ (by simp only [pulseBufBase]; omega)

theorem pulseBufHoldsPulses_congr {c : Config} {s t : State} (h : PulseBufHoldsPulses c s)
    (hcount : t.pulseCount = s.pulseCount) (hbytes : ∀ a, 0x2000 ≤ a → byteAt t a = byteAt s a) :
    PulseBufHoldsPulses c t := by
  unfold PulseBufHoldsPulses
  rwa [hcount, pulsesAt_congr _ hbytes]

/-- The frame of a raw command of at most 111 bytes lies within its slot. -/
theorem slotsHoldExpansion_congr {c : Config} {s t : State} (h : SlotsHoldExpansion c s) (hexp : SameExpRegisters s t)
    (hbytes : ∀ a, 0x800 ≤ a → a < 0x1000 → byteAt t a = byteAt s a) : SlotsHoldExpansion c t := by
  obtain ⟨hvalid, htime, hlen⟩ := hexp
  obtain ⟨time, r, hr, hmask, hslots⟩ := h
  refine ⟨time, r, hr, hvalid.trans hmask, fun i => ?_⟩
  obtain ⟨hti, hli, hframe⟩ := hslots i
  rw [htime, hlen]
  refine ⟨hti, hli, fun hv => (bytesAt_congr t s _ _ fun k hk => ?_).trans (hframe hv)⟩
  refine hbytes _ ?_ ?_ <;> simp only [expFrameBase] <;> omega

/-! ### What the stores of the operations give -/

theorem outBufHoldsFrame_storeFrame (c : Config) {p : List Byte} (s : State) (hp : p.length ≤ 112) :
    OutBufHoldsFrame c (storeFrame (frameOf c p) s) := by
  have hlength := frameOf_length c p
  refine .inr ⟨p, hp, ?_⟩
  rw [storeFrame_outLen_toNat s (by omega)]
  exact storeFrame_bytesAt _ s

theorem pulseBufHoldsPulses_storePulses (c : Config) {bs : List Byte} {w : Half} (s : State)
    (hlo : 1 ≤ bs.length) (hhi : bs.length ≤ 128) (hw : w ≠ 0) :
    PulseBufHoldsPulses c (storePulses (pulsesOf c bs w.toNat) s) := by
  have hpos : w.toNat ≠ 0 := fun h => hw (BitVec.eq_of_toNat_eq h)
  obtain ⟨hcount, hfits⟩ := pulseEncode_half_fits c.stopEachByte w hhi
  rw [← pulsesOf] at hcount hfits
  refine .inr ⟨bs, w.toNat, hlo, hhi, by omega, Nat.le_of_lt_succ w.isLt, ?_⟩
  rw [storePulses_pulseCount_toNat s hcount]
  exact storePulses_durations s hfits

theorem slotsHoldExpansion_expandEffect (c : Config) {s : State} (hlen : s.len.toNat ≤ 111) :
    SlotsHoldExpansion c (expandEffect c s) := by
  have hin := inBytes_length s s.len.toNat
  refine ⟨s.absTime, inBytes s s.len.toNat, by omega, rfl, fun i => ?_⟩
  rw [hin]
  exact ⟨expandEffect_expTime c s i, expandEffect_expLen c s i, expandEffect_bytesAt_slot c hlen⟩

/-! ### What makes the invariant -/

/-- What the result registers and the output buffers hold together: whole frames, pulse lists and expansions. -/
def HoldsResults (c : Config) (s : State) : Prop :=
  OutBufHoldsFrame c s ∧ PulseBufHoldsPulses c s ∧ SlotsHoldExpansion c s

theorem holdsResults_of_invWith {c : Config} {s : State} (h : InvWith c s) : HoldsResults c s :=
  ⟨h.out, h.pulses, h.slots⟩

theorem holdsResults_of_sameOutputs {c : Config} {s t : State} (h : HoldsResults c s) (hsame : SameOutputs s t) :
    HoldsResults c t := by
  obtain ⟨hout, hpulses, hslots⟩ := h
  obtain ⟨-, hlen, hcount, hvalid, htime, hexpLen, hbytes⟩ := hsame
  exact ⟨outBufHoldsFrame_congr hout hlen fun a ha _ => hbytes a ha,
    pulseBufHoldsPulses_congr hpulses hcount fun a ha => hbytes a (by omega),
    slotsHoldExpansion_congr hslots ⟨hvalid, htime, hexpLen⟩ fun a ha _ => hbytes a (by omega)⟩

/-- At reset there is no frame, no pulse list, and the expansion of time 0, in which every bucket is skipped. -/
theorem holdsResults_of_atReset (c : Config) {s : State} (h : AtReset s) : HoldsResults c s := by
  unfold AtReset at h
  rw [h]
  have hmask : State.reset.expValid = validMask (0 : Word).toNat := by decide
  refine ⟨.inl rfl, .inl rfl, 0, [], Nat.zero_le _, hmask, fun i => ?_⟩
  have hskip : bucketValid (0 : Word).toNat i = false := (bucketValid_eq_false_iff _ _).mpr (by simp; omega)
  obtain ⟨htime, hlen⟩ := reset_slots i
  rw [slotTime_of_skipped hskip, slotLen_of_skipped _ hskip, hskip]
  exact ⟨htime, hlen, fun hv => absurd hv Bool.false_ne_true⟩

theorem invWith_of_atReset (c : Config) {s : State} (h : AtReset s) : InvWith c s := by
  obtain ⟨hout, hpulses, hslots⟩ := holdsResults_of_atReset c h
  have hmem : s.mem = [] := congrArg State.mem h
  have hcode : s.errCode = 0 := congrArg State.errCode h
  refine ⟨?mem, ?code, ?engine, hout, hpulses, hslots, fun _ => h⟩
  case mem =>
    rw [hmem]
    exact ⟨List.Pairwise.nil, fun _ hc => absurd hc List.not_mem_nil⟩
  case code =>
    rw [hcode]
    decide
  case engine =>
    rw [EngineAgrees, atReset_engine h]
    exact atReset_busy h

/-- An issued word runs only while reset is not asserted. -/
theorem resetHeld_of_run {c : Config} {s : State} {v : Word} (h : InvWith c s) (hrun : s.engine = .run v) :
    s.resetHeld = false := by
  by_contra hheld
  rw [Bool.not_eq_false] at hheld
  rw [atReset_engine (h.held hheld)] at hrun
  cases hrun

/-! ### What an operation's effect keeps -/

/-- Where UNIT_WIDTH is checked and every check passes, it is positive. -/
theorem unitWidth_ne_zero_of_code {i : Instr} {s : State} (hcode : codeOf i s = 0) (hneeds : needsUnitWidth i = true) :
    s.unitWidth ≠ 0 := by
  intro hzero
  simp [codeOf, lenInRange_of_code i s hcode, hneeds, hzero] at hcode

/-- FRAME_ENC stores the frame of the input and then the pulses of that frame (R158). -/
theorem effect_frameEnc (c : Config) (s : State) :
    effect c .frameEnc s =
      storePulses (pulsesOf c (frameOf c (inBytes s s.len.toNat)) s.unitWidth.toNat)
        (storeFrame (frameOf c (inBytes s s.len.toNat)) s) := rfl

section
variable {c : Config} {s t : State} (h : HoldsResults c s)
include h

theorem holdsResults_storeFrame {p : List Byte} (hp : p.length ≤ 112) :
    HoldsResults c (storeFrame (frameOf c p) s) := by
  obtain ⟨-, hpulses, hslots⟩ := h
  have hlength := frameOf_length c p
  have hkeep : ∀ a, 0x800 ≤ a → byteAt (storeFrame (frameOf c p) s) a = byteAt s a := fun a ha =>
    storeFrame_byteAt _ s a (.inr (by rw [hlength]; simp only [outBufBase]; omega))
  exact ⟨outBufHoldsFrame_storeFrame c s hp,
    pulseBufHoldsPulses_congr hpulses rfl fun a ha => hkeep a (by omega),
    slotsHoldExpansion_congr hslots ⟨rfl, rfl, rfl⟩ fun a ha _ => hkeep a ha⟩

theorem holdsResults_storePulses {bs : List Byte} {w : Half} (hlo : 1 ≤ bs.length) (hhi : bs.length ≤ 128)
    (hw : w ≠ 0) : HoldsResults c (storePulses (pulsesOf c bs w.toNat) s) := by
  obtain ⟨hout, -, hslots⟩ := h
  have hkeep : ∀ a, a < 0x2000 → byteAt (storePulses (pulsesOf c bs w.toNat) s) a = byteAt s a := fun a ha =>
    storePulses_byteAt _ s a (.inl ha)
  exact ⟨outBufHoldsFrame_congr hout rfl fun a _ ha => hkeep a (by omega),
    pulseBufHoldsPulses_storePulses c s hlo hhi hw,
    slotsHoldExpansion_congr hslots ⟨rfl, rfl, rfl⟩ fun a _ ha => hkeep a (by omega)⟩

theorem holdsResults_expandEffect (hlen : s.len.toNat ≤ 111) : HoldsResults c (expandEffect c s) := by
  obtain ⟨hout, hpulses, -⟩ := h
  exact ⟨outBufHoldsFrame_congr hout (by rw [expandEffect_eq]) fun a _ ha =>
      expandEffect_byteAt_outside c hlen (.inl (by omega)),
    pulseBufHoldsPulses_congr hpulses (by rw [expandEffect_eq]) fun a ha =>
      expandEffect_byteAt_outside c hlen (.inr (by omega)),
    slotsHoldExpansion_expandEffect c hlen⟩

/-- The effect of an operation whose checks pass stores a whole result, and leaves the other results as they were. -/
theorem holdsResults_effect {i : Instr} (hcode : codeOf i s = 0) : HoldsResults c (effect c i s) := by
  have hlen := lenInRange_of_code i s hcode
  have hin := inBytes_length s s.len.toNat
  cases i with
  | nop => exact h
  | crc => exact h
  | frame =>
    simp only [lenInRange, decide_eq_true_eq] at hlen
    exact holdsResults_storeFrame (p := inBytes s s.len.toNat) h (by omega)
  | encode =>
    simp only [lenInRange, decide_eq_true_eq] at hlen
    exact holdsResults_storePulses (bs := inBytes s s.len.toNat) h (by omega) (by omega)
      (unitWidth_ne_zero_of_code hcode rfl)
  | frameEnc =>
    simp only [lenInRange, decide_eq_true_eq] at hlen
    have hframe := frameOf_length c (inBytes s s.len.toNat)
    rw [effect_frameEnc]
    exact holdsResults_storePulses (holdsResults_storeFrame h (by omega)) (by omega) (by omega)
      (unitWidth_ne_zero_of_code hcode rfl)
  | expand =>
    simp only [lenInRange, decide_eq_true_eq] at hlen
    exact holdsResults_expandEffect h hlen

end

/-! ### What a host write keeps -/

/-- Clearing flags touches ENGINE, BUSY and CMD_LAST not at all, and DONE only downwards. -/
theorem engineAgrees_clearFlags (v : Word) {s : State} (h : EngineAgrees s) : EngineAgrees (clearFlags v s) := by
  unfold EngineAgrees at h ⊢
  rw [clearFlags_engine]
  cases hrun : s.engine with
  | idle => simpa [hrun] using h
  | run u =>
    rw [hrun] at h
    obtain ⟨hbusy, hdone, hcmd⟩ := h
    exact ⟨hbusy, by rw [clearFlags_done, hdone, Bool.false_and], hcmd⟩

section
variable {s : State} (off : Offset) (v : Word) (hheld : s.resetHeld = false)
include hheld

/-- A write to storage stores a word of IN_BUF. -/
theorem memWrite_wf (h : s.mem.wf) : (memWrite off v s).mem.wf := by
  rcases memWrite_cases off v s hheld with ⟨-, -, hw⟩ | ⟨-, hw⟩ | ⟨-, hw⟩ | ⟨-, -, hw⟩ | ⟨-, -, hw⟩ | ⟨-, -, hw⟩ |
    ⟨m, -, -, hw⟩ | ⟨-, -, hw⟩ | ⟨-, -, -, hw⟩ <;> rw [hw]
  any_goals exact h
  refine storeBytes_wf _ _ s h fun k hk => ?_
  rw [wordBytes_length] at hk
  rw [Nat.add_assoc]
  exact isStorage_inBuf _ (by omega)

/-- An accepted CMD write starts the engine on the word CMD then reads, with DONE 0; no other write touches ENGINE, BUSY
or CMD_LAST, or sets DONE. -/
theorem engineAgrees_memWrite (h : EngineAgrees s) : EngineAgrees (memWrite off v s) := by
  rcases memWrite_cases off v s hheld with ⟨-, -, hw⟩ | ⟨-, hw⟩ | ⟨-, hw⟩ | ⟨-, -, hw⟩ | ⟨-, -, hw⟩ | ⟨-, -, hw⟩ |
    ⟨m, -, -, hw⟩ | ⟨-, -, hw⟩ | ⟨-, -, -, hw⟩ <;> rw [hw]
  any_goals exact h
  · exact ⟨rfl, rfl, rfl⟩
  · exact engineAgrees_clearFlags v h

end

theorem codeOf_le (i : Instr) (s : State) : (codeOf i s).toNat ≤ 3 := by
  unfold codeOf
  split_ifs <;> decide

/-! ### What every step keeps -/

section
variable {c : Config} {s t : State} (h : InvWith c s)
include h

/-- What is not the block's own plays no part in the invariant. -/
theorem invWith_of_sameBlock
    (ht : t = { s with pending := t.pending, turns := t.turns, answers := t.answers, draws := t.draws }) :
    InvWith c t := by
  have hheld : t.resetHeld = true → AtReset t := fun hr =>
    atReset_of_sameBlock (h.held (by rwa [ht] at hr)) ht
  rw [ht] at hheld ⊢
  exact ⟨h.mem, h.code, h.engine, h.out, h.pulses, h.slots, hheld⟩

theorem invWith_rejectedWith {code : BitVec 4} (hcode : code.toNat ≤ 3) (hheld : s.resetHeld = false) :
    InvWith c (rejectedWith code s) :=
  ⟨h.mem, hcode, rfl, h.out, h.pulses, h.slots, fun hr => absurd (hr.symm.trans hheld) (by decide)⟩

theorem invWith_complete_effect {i : Instr} (hcode : codeOf i s = 0) (hheld : s.resetHeld = false) :
    InvWith c (complete .ok (effect c i s)) := by
  obtain ⟨hout, hpulses, hslots⟩ := holdsResults_effect (holdsResults_of_invWith h) hcode
  have hheld' : (effect c i s).resetHeld = false := by rw [effect_eq, hheld]
  exact ⟨effect_wf c i s h.mem hcode, Nat.zero_le 3, rfl, hout, hpulses, hslots,
    fun hr => absurd (hr.symm.trans hheld') (by decide)⟩

theorem invWith_execWith {i : Instr} (hheld : s.resetHeld = false) (ht : execWith c i s = .next t) :
    InvWith c t := by
  rcases execWith_cases c i s t ht with ⟨hcode, rfl⟩ | ⟨-, rfl⟩
  · exact invWith_complete_effect h hcode hheld
  · exact invWith_rejectedWith h (codeOf_le i s) hheld

/-- While reset is asserted no write takes hold; otherwise a write leaves the outputs as they were, and only the
accepted write to CMD changes ENGINE. -/
theorem invWith_memWrite (off : Offset) (v : Word) : InvWith c (memWrite off v s) := by
  cases hheld : s.resetHeld with
  | true => exact invWith_of_atReset c (atReset_memWrite off v (h.held hheld) hheld)
  | false =>
    obtain ⟨hsame, hworld, hcode, -⟩ := writeLoc_keeps (locate off) v s hheld
    obtain ⟨hout, hpulses, hslots⟩ := holdsResults_of_sameOutputs (holdsResults_of_invWith h) hsame
    refine ⟨memWrite_wf off v hheld h.mem, ?_, engineAgrees_memWrite off v hheld h.engine, hout, hpulses, hslots, ?_⟩
    · rw [memWrite, hcode]
      exact h.code
    · rw [memWrite, hworld.1, hheld]
      exact fun hr => absurd hr Bool.false_ne_true

theorem invWith_applyInput {x : Input} (ht : applyInput x s = .next t) : InvWith c t := by
  rcases applyInput_cases x s t ht with ⟨off, v, -, rfl⟩ | ⟨-, -, hsame⟩ | ⟨-, held, rfl⟩
  · exact invWith_memWrite h off v
  · refine invWith_of_sameBlock h ?_
    rw [hsame]
  · exact invWith_of_atReset c (atReset_resetBlock held s)

theorem invWith_stepWith (ht : stepWith c s = .next t) : InvWith c t := by
  have hpass : InvWith c (passTurn s) := invWith_of_sameBlock h rfl
  have htake : InvWith c (takeInput s) := invWith_of_sameBlock h rfl
  rcases stepBy_cases (execWith c) s with ⟨v, i, hm, -, hs⟩ | ⟨v, e, hm, -, hs⟩ | ⟨x, -, hs⟩ | ⟨-, hs⟩ <;>
    rw [stepWith, hs] at ht
  · exact invWith_execWith hpass (resetHeld_of_run hpass (nextMove_execute s v hm)) ht
  · rw [illegal_next] at ht
    cases ht
    exact invWith_rejectedWith hpass (by decide) (resetHeld_of_run hpass (nextMove_execute s v hm))
  · exact invWith_applyInput htake ht
  · cases ht
    exact hpass

end

/-- Settles O50: the state after reset is at reset. -/
theorem invariantAtReset : Obligations.InvariantAtReset := invWith_of_atReset Config.hardware rfl

/-- Settles O59: the invariant holds of every state at reset, and every move of either agent keeps it. -/
theorem everyConfigurationKeepsItsInvariant : Obligations.EveryConfigurationKeepsItsInvariant :=
  fun c => ⟨invWith_of_atReset c rfl, fun _ _ h ht => invWith_stepWith h ht⟩

/-- Settles O51: this hardware's step is the step under its configuration, which keeps the invariant. -/
theorem everyStepKeepsTheInvariant : Obligations.EveryStepKeepsTheInvariant := fun s _ h ht =>
  invWith_stepWith h ((step_eq_stepWith s).symm.trans ht)

end Sys2Proof.Machine
end

section
/-! SUPPORT. What steps answer and how they end: that only a read of STATUS with a reserved ERRCODE stops the machine
(U6), that a running word ends within the turns listed (R115), and what the reset input does and holds (R210, R211). -/

namespace Sys2Proof.Machine

open Sys2Proof.Safety

/-! ### Answers (R195, U6) -/

theorem locate_errCode_of_meets {off : Offset} {s : State} (h : meetsReservedErrCode off s = true) :
    locate off = .status ∧ 3 < s.errCode.toNat := by
  rwa [meetsReservedErrCode, Bool.and_eq_true, decide_eq_true_iff, decide_eq_true_iff] at h

/-- What an input can answer: a next state, or the fault of a read of STATUS that meets an ERRCODE above 3. -/
theorem applyInput_answers (x : Input) (s : State) :
    (∃ t, applyInput x s = .next t) ∨
      (∃ off, inputRead x = some off ∧ locate off = .status) ∧ 3 < s.errCode.toNat ∧
        applyInput x s = .fault (.reservedErrCode s.errCode) := by
  have hread : ∀ off, (∃ t, hostRead off s = .next t) ∨
      locate off = .status ∧ 3 < s.errCode.toNat ∧ hostRead off s = .fault (.reservedErrCode s.errCode) := by
    intro off
    unfold hostRead
    split
    next hmeets =>
      obtain ⟨hloc, hcode⟩ := locate_errCode_of_meets hmeets
      exact .inr ⟨hloc, hcode, rfl⟩
    next => exact .inl ⟨_, rfl⟩
  cases x with
  | wr off v => exact .inl ⟨_, rfl⟩
  | rd off => exact (hread off).imp_right fun ⟨hloc, h⟩ => ⟨⟨off, rfl, hloc⟩, h⟩
  | poll off mask val =>
    simp only [applyInput, hostPoll]
    split
    next hmeets =>
      obtain ⟨hloc, hcode⟩ := locate_errCode_of_meets hmeets
      exact .inr ⟨⟨off, rfl, hloc⟩, hcode, rfl⟩
    next => split <;> exact .inl ⟨_, rfl⟩
  | busWr a v => exact .inl ⟨_, rfl⟩
  | busRd a =>
    simp only [applyInput, busRead, inputRead]
    cases windowOffset a with
    | none => exact .inl ⟨_, rfl⟩
    | some off => exact (hread off).imp_right fun ⟨hloc, h⟩ => ⟨⟨off, rfl, hloc⟩, h⟩
  | assertReset => exact .inl ⟨_, rfl⟩
  | releaseReset => exact .inl ⟨_, rfl⟩

/-- What a step can answer. -/
theorem step_answers (s : State) :
    (∃ t, step s = .next t) ∨
      AboutToRead s .status ∧ 3 < s.errCode.toNat ∧ step s = .fault (.reservedErrCode s.errCode) := by
  rcases step_cases s with ⟨v, i, -, -, hs⟩ | ⟨v, e, -, -, hs⟩ | ⟨x, hmove, hs⟩ | ⟨-, hs⟩
  · obtain ⟨t, ht, -⟩ := firstFailingCheckIsReportedAlone.1 i (passTurn s)
    exact .inl ⟨t, hs.trans ht⟩
  · exact .inl ⟨_, hs.trans (illegal_next _)⟩
  · rw [hs]
    exact (applyInput_answers x (takeInput s)).imp_right fun ⟨⟨off, hread, hloc⟩, h⟩ =>
      ⟨⟨x, off, hmove, hread, hloc⟩, h⟩
  · exact .inl ⟨_, hs⟩

theorem step_next_of_inv {s : State} (h : Inv s) : ∃ t, step s = .next t := by
  refine (step_answers s).resolve_right ?_
  rintro ⟨-, hcode, -⟩
  exact absurd h.code (Nat.not_le.mpr hcode)

/-- Settles O52, from the answers a step can give. -/
theorem onlyAReservedErrCodeStopsAStep : Obligations.OnlyAReservedErrCodeStopsAStep := by
  refine ⟨fun s r hrefused => ?_, fun s f hfault => ?_, fun s => step_next_of_inv⟩
  · rcases step_answers s with ⟨t, hs⟩ | ⟨-, -, hs⟩ <;> cases hs.symm.trans hrefused
  · rcases step_answers s with ⟨t, hs⟩ | ⟨hread, hcode, hs⟩ <;> cases hs.symm.trans hfault
    exact ⟨rfl, hcode, hread⟩

/-! ### The end of a running word (R115) -/

/-- An input uses up its turn and no other. -/
theorem applyInput_turns {x : Input} {s t : State} (h : applyInput x s = .next t) : t.turns = s.turns := by
  rcases applyInput_cases x s t h with ⟨off, v, -, rfl⟩ | ⟨-, -, ht⟩ | ⟨-, held, rfl⟩
  · obtain ⟨-, hturns, -, -⟩ := writeLoc_lists (locate off) v s
    exact hturns
  · rw [ht]
  · rfl

theorem engine_of_execute {s t : State} (h : step s = .next t) (hx : AboutToExecute s) : t.engine = .idle := by
  rcases step_of_execute hx with ⟨i, hs⟩ | ⟨code, -, hs⟩
  · cases hs.symm.trans h
    rfl
  · cases hs.symm.trans h
    rfl

/-- A step while a word runs leaves the engine idle or uses up a listed turn of the host. -/
theorem step_of_running {s : State} {v : Word} (h : Inv s) (hrun : s.engine = .run v) :
    ∃ t, step s = .next t ∧ (t.engine = .idle ∨ s.turns = .host :: t.turns) := by
  obtain ⟨t, ht⟩ := step_next_of_inv h
  refine ⟨t, ht, ?_⟩
  rcases nextMove_of_running hrun with hmove | ⟨x, rest, hmove, hturns⟩
  · exact .inl (engine_of_execute ht ⟨v, hmove⟩)
  · rw [step_of_input hmove] at ht
    rw [applyInput_turns ht, takeInput_turns, hturns]
    exact .inr rfl

theorem run_of_step {s t : State} (k : Nat) (h : step s = .next t) :
    Host.Core.run core (k + 1) s = Host.Core.run core k t := by
  simp only [Host.Core.run, core, h]

/-- A running word ends within one step more than the turns listed. -/
theorem run_ends (turns : List Agent) : ∀ (s : State) (v : Word), Inv s → s.engine = .run v → s.turns = turns →
    ∃ (k : Nat) (t : State), 1 ≤ k ∧ k ≤ turns.length + 1 ∧ Host.Core.run core k s = .next t ∧ t.engine = .idle := by
  induction turns with
  | nil =>
    intro s v hinv hrun hturns
    obtain ⟨t, ht, hidle | hhost⟩ := step_of_running hinv hrun
    · exact ⟨1, t, by omega, by simp, run_of_step 0 ht, hidle⟩
    · rw [hturns] at hhost
      cases hhost
  | cons a rest ih =>
    intro s v hinv hrun hturns
    obtain ⟨t, ht, hend⟩ := step_of_running hinv hrun
    cases hengine : t.engine with
    | idle => exact ⟨1, t, by omega, by simp, run_of_step 0 ht, hengine⟩
    | run u =>
      rw [hengine, hturns] at hend
      obtain hrest : rest = t.turns := List.tail_eq_of_cons_eq (hend.resolve_left Engine.noConfusion)
      obtain ⟨k, t', hlo, hhi, hk, hidle⟩ := ih t u (everyStepKeepsTheInvariant s t hinv ht) hengine hrest.symm
      exact ⟨k + 1, t', by omega, by rw [List.length_cons]; omega, (run_of_step k ht).trans hk, hidle⟩

/-- Settles O53, by induction on the turns listed. -/
theorem everyIssuedOperationEnds : Obligations.EveryIssuedOperationEnds := fun s v hinv hrun =>
  run_ends s.turns s v hinv hrun rfl

/-! ### The reset input (R210, R211) -/

/-- Settles O29: asserting and releasing the input are the block's reset with the input at its new level. -/
theorem resetInputAbandonsEverything : Obligations.ResetInputAbandonsEverything := by
  intro s
  have hreset : ∀ held, (resetBlock held s).epoch ≠ s.epoch ∧ irq (resetBlock held s) = false ∧
      (∀ v, (resetBlock held s).engine ≠ .run v) ∧ ∀ a, (resetBlock held s).mem.lookup a = none := fun held =>
    ⟨Nat.succ_ne_self _, rfl, fun _ => Engine.noConfusion, fun _ => rfl⟩
  refine ⟨⟨resetBlock true s, rfl, rfl, hreset true⟩, fun hheld => ⟨resetBlock false s, ?_, rfl, hreset false⟩,
    fun hheld => ?_⟩
  · rw [applyInput, releaseReset_held s hheld]
  · rw [applyInput, releaseReset_released s hheld]

section
variable {x : Input} {s t : State} (hheld : s.resetHeld = true) (ht : applyInput x s = .next t)
include hheld ht

/-- While reset is asserted every input leaves the block at reset. -/
theorem atReset_applyInput (h : AtReset s) : AtReset t := by
  rcases applyInput_cases x s t ht with ⟨off, v, -, rfl⟩ | ⟨-, -, hsame⟩ | ⟨-, held, rfl⟩
  · exact atReset_memWrite off v h hheld
  · exact atReset_of_sameBlock h (by rw [hsame])
  · exact atReset_resetBlock held s

/-- An asserted reset input stays asserted until it is released. -/
theorem resetHeld_applyInput : t.resetHeld = false ↔ x = .releaseReset := by
  by_cases hx : x = .releaseReset
  · subst hx
    rw [applyInput, releaseReset_held s hheld] at ht
    cases ht
    exact ⟨fun _ => rfl, fun _ => rfl⟩
  · suffices hstay : t.resetHeld = true by simp [hx, hstay]
    rcases applyInput_cases x s t ht with ⟨off, v, -, rfl⟩ | ⟨-, -, hsame⟩ | ⟨hresets, -⟩
    · obtain ⟨-, -, -, -, -, hkeep⟩ := writeLoc_bits (locate off) v s
      exact hkeep.trans hheld
    · rw [hsame]
      exact hheld
    · cases x with
      | assertReset =>
        cases ht
        rfl
      | releaseReset => exact absurd rfl hx
      | wr _ _ | rd _ | poll _ _ _ | busWr _ _ | busRd _ => cases hresets

end

/-- Settles O60: no operation runs while reset is asserted, so a step is an input or waiting. -/
theorem assertedResetHoldsResetValues : Obligations.AssertedResetHoldsResetValues := by
  intro s t hinv hheld ht
  have hreset := hinv.held hheld
  suffices h : AtReset t ∧ (t.resetHeld = false ↔ nextMove s = .input .releaseReset) by
    obtain ⟨hat, hrelease⟩ := h
    exact ⟨hat, irq_of_done_low (atReset_done hat), atReset_busy hat, atReset_engine hat, hrelease.mp, hrelease.mpr⟩
  have hnorun : ∀ v, nextMove s ≠ .execute v := fun v hmove => by
    have hrun := nextMove_execute s v hmove
    rw [atReset_engine hreset] at hrun
    cases hrun
  rcases step_cases s with ⟨v, i, hmove, -⟩ | ⟨v, e, hmove, -⟩ | ⟨x, hmove, hs⟩ | ⟨hmove, hs⟩
  · exact absurd hmove (hnorun v)
  · exact absurd hmove (hnorun v)
  · rw [hs] at ht
    rw [hmove, Move.input.injEq]
    exact ⟨atReset_applyInput (s := takeInput s) hheld ht (atReset_of_sameBlock hreset rfl),
      resetHeld_applyInput (s := takeInput s) hheld ht⟩
  · cases hs.symm.trans ht
    rw [hmove]
    exact ⟨atReset_of_sameBlock hreset rfl, by simp [hheld]⟩

end Sys2Proof.Machine
end

section
/-! SUPPORT. Operands, outputs and what depends on them: no operation writes an operand (R116), no access during BUSY
touches operands or outputs (R84), and operands and outputs decide what an operation leaves (R45, R46, R158). -/

namespace Sys2Proof.Machine

open Sys2Proof.Safety

/-! ### What an operation leaves alone (R116) -/

@[simp] theorem effect_len (c : Config) (i : Instr) (s : State) : (effect c i s).len = s.len := by rw [effect_eq]
@[simp] theorem effect_unitWidth (c : Config) (i : Instr) (s : State) : (effect c i s).unitWidth = s.unitWidth := by
  rw [effect_eq]
@[simp] theorem effect_absTime (c : Config) (i : Instr) (s : State) : (effect c i s).absTime = s.absTime := by
  rw [effect_eq]
@[simp] theorem effect_cmdLast (c : Config) (i : Instr) (s : State) : (effect c i s).cmdLast = s.cmdLast := by
  rw [effect_eq]

theorem sameWorld_effect (c : Config) (i : Instr) (s : State) : SameWorld s (effect c i s) := by
  rw [effect_eq]
  exact ⟨rfl, rfl, rfl, rfl, rfl, rfl⟩

theorem sameOperands_effect (c : Config) (i : Instr) (s : State) : SameOperands s (effect c i s) :=
  ⟨effect_len c i s, effect_unitWidth c i s, effect_absTime c i s, fun a _ => effect_byteAt_low c i s a⟩

/-- Settles O39: an effect writes results and output bytes alone, and a rejected operation writes nothing. -/
theorem operationsKeepOperandsAndControl : Obligations.OperationsKeepOperandsAndControl := by
  intro i s t ht
  rcases exec_cases i s t ht with ⟨-, rfl⟩ | ⟨-, rfl⟩
  · exact ⟨sameOperands_effect _ i s, ⟨effect_len _ i s, effect_unitWidth _ i s, effect_absTime _ i s, effect_ie _ i s,
      effect_cmdLast _ i s⟩, sameWorld_effect _ i s, effect_werr _ i s⟩
  · exact ⟨⟨rfl, rfl, rfl, fun _ _ _ => rfl⟩, ⟨rfl, rfl, rfl, rfl, rfl⟩, ⟨rfl, rfl, rfl, rfl, rfl, rfl⟩, rfl⟩

/-! ### The BUSY window (R84, R192) -/

/-- What is not the block's own holds no operand and no output. -/
theorem sameOperands_sameOutputs_of_sameBlock {s t : State}
    (ht : t = { s with pending := t.pending, answers := t.answers, draws := t.draws }) :
    SameOperands s t ∧ SameOutputs s t := by
  rw [ht]
  exact ⟨⟨rfl, rfl, rfl, fun _ _ _ => rfl⟩, rfl, rfl, rfl, rfl, rfl, rfl, fun _ _ => rfl⟩

section
variable {s t : State} {x : Input} (hheld : s.resetHeld = false) (hbusy : s.busy = true) (hx : x ≠ .assertReset)
  (ht : applyInput x s = .next t)
include hheld hx ht

/-- While reset is not asserted, an input that does not assert it is one MemWrite or changes nothing of the block. -/
theorem applyInput_of_released :
    (∃ off v, t = memWrite off v s) ∨
      t = { s with pending := t.pending, answers := t.answers, draws := t.draws } := by
  rcases applyInput_cases x s t ht with ⟨off, v, -, hw⟩ | ⟨-, -, hsame⟩ | ⟨hresets, -⟩
  · exact .inl ⟨off, v, hw⟩
  · exact .inr hsame
  · exfalso
    cases x with
    | assertReset => exact hx rfl
    | releaseReset => exact Bool.false_ne_true (hheld.symm.trans hresets)
    | wr _ _ | rd _ | poll _ _ _ | busWr _ _ | busRd _ => cases hresets

include hbusy

theorem busyWindow_applyInput :
    SameOperands s t ∧ SameOutputs s t ∧ t.cmdLast = s.cmdLast ∧ t.engine = s.engine ∧ t.busy = true := by
  rcases applyInput_of_released hheld hx ht with ⟨off, v, rfl⟩ | hsame
  · obtain ⟨hout, -, -, hkeep⟩ := writeLoc_keeps (locate off) v s hheld
    obtain ⟨hops, hcmd, hengine⟩ := hkeep hbusy
    obtain ⟨hbit, -⟩ := writeLoc_bits (locate off) v s
    exact ⟨hops, hout, hcmd, hengine, by rw [memWrite, hbit, hbusy, Bool.true_or]⟩
  · obtain ⟨hops, hout⟩ := sameOperands_sameOutputs_of_sameBlock hsame
    exact ⟨hops, hout, by rw [hsame], by rw [hsame], by rw [hsame, hbusy]⟩

end

/-- Settles O54: during BUSY an input is a write that takes no hold in operands and outputs, or no write. -/
theorem busyWindowKeepsOperandsAndOutputs : Obligations.BusyWindowKeepsOperandsAndOutputs :=
  fun _ _ _ hheld hbusy hx ht => busyWindow_applyInput hheld hbusy hx ht

/-! ### Operands and outputs decide what an operation leaves -/

section
variable {s t : State}

theorem codeOf_congr (i : Instr) (h : SameOperands s t) : codeOf i t = codeOf i s := by
  obtain ⟨hlen, hwidth, -, -⟩ := h
  rw [codeOf, codeOf, hlen, hwidth]

/-- At most 128 input bytes lie within IN_BUF. -/
theorem inputBytes_congr (h : SameOperands s t) (hle : s.len.toNat ≤ 128) : inputBytes t = inputBytes s := by
  obtain ⟨hlen, -, -, hbytes⟩ := h
  rw [inputBytes, inputBytes, lenOperand, lenOperand, hlen]
  refine bytesAt_congr t s _ _ fun k hk => hbytes _ ?_ ?_ <;> simp only [inBufBase] <;> omega

/-- A stored byte is the same whatever was there, and the others are as they were. -/
theorem byteAt_storeBytes_congr (a : Nat) (bs : List Byte) {x : Nat} (h : byteAt t x = byteAt s x) :
    byteAt (storeBytes a bs t) x = byteAt (storeBytes a bs s) x := by
  by_cases hx : a ≤ x ∧ x < a + bs.length
  · obtain ⟨k, rfl⟩ := Nat.exists_eq_add_of_le hx.1
    rw [byteAt_storeBytes_inside a bs t k (by omega), byteAt_storeBytes_inside a bs s k (by omega)]
  · rw [byteAt_storeBytes_outside a bs t x (by omega), byteAt_storeBytes_outside a bs s x (by omega), h]

theorem sameOutputs_storeFrame (f : List Byte) (h : SameOutputs s t) :
    SameOutputs (storeFrame f s) (storeFrame f t) := by
  obtain ⟨-, -, hcount, hvalid, htime, hexpLen, hbytes⟩ := h
  exact ⟨rfl, rfl, hcount, hvalid, htime, hexpLen, fun a ha => byteAt_storeBytes_congr outBufBase f (hbytes a ha)⟩

theorem sameOutputs_storePulses (d : List Nat) (h : SameOutputs s t) :
    SameOutputs (storePulses d s) (storePulses d t) := by
  obtain ⟨hresult, hlen, -, hvalid, htime, hexpLen, hbytes⟩ := h
  exact ⟨hresult, hlen, rfl, hvalid, htime, hexpLen,
    fun a ha => byteAt_storeBytes_congr pulseBufBase (pulseBytes d) (hbytes a ha)⟩

theorem byteAt_storeSlot_congr (c : Config) (time : Nat) (r : List Byte) (i : Fin 16) {x : Nat}
    (h : byteAt t x = byteAt s x) : byteAt (storeSlot c time r t i) x = byteAt (storeSlot c time r s i) x := by
  unfold storeSlot
  split
  · exact byteAt_storeBytes_congr _ _ h
  · exact h

theorem byteAt_storeSlots_congr (c : Config) (time : Nat) (r : List Byte) {x : Nat} (h : byteAt t x = byteAt s x) :
    byteAt (storeSlots c time r t) x = byteAt (storeSlots c time r s) x := by
  unfold storeSlots
  generalize List.finRange 16 = l
  induction l generalizing s t with
  | nil => exact h
  | cons i l ih => exact ih (byteAt_storeSlot_congr c time r i h)

/-- EXPAND writes every EXP register, and its slots by ABS_TIME and the input. -/
theorem sameOutputs_expandEffect (c : Config) (hops : SameOperands s t) (h : SameOutputs s t)
    (hle : s.len.toNat ≤ 128) : SameOutputs (expandEffect c s) (expandEffect c t) := by
  have hin := inputBytes_congr hops hle
  obtain ⟨hlen, -, htime, -⟩ := hops
  obtain ⟨hresult, houtLen, hcount, -, -, -, hbytes⟩ := h
  have hkeep : ∀ u : State, (expandEffect c u).result = u.result ∧ (expandEffect c u).outLen = u.outLen ∧
      (expandEffect c u).pulseCount = u.pulseCount := fun u => by
    rw [expandEffect_eq]
    exact ⟨rfl, rfl, rfl⟩
  obtain ⟨hresultS, houtLenS, hcountS⟩ := hkeep s
  obtain ⟨hresultT, houtLenT, hcountT⟩ := hkeep t
  refine ⟨by rw [hresultS, hresultT, hresult], by rw [houtLenS, houtLenT, houtLen], by rw [hcountS, hcountT, hcount],
    ?_, ?_, ?_, fun a ha => ?_⟩
  · simp only [expandEffect, absTimeOperand, htime]
  · simp only [expandEffect, absTimeOperand, htime]
  · simp only [expandEffect, absTimeOperand, lenOperand, htime, hlen]
  · rw [expandEffect_byteAt, expandEffect_byteAt, hin, htime]
    exact byteAt_storeSlots_congr c _ _ (hbytes a ha)

/-- The same operands and outputs before an operation give the same outputs after it. -/
theorem sameOutputs_effect (c : Config) {i : Instr} (hcode : codeOf i s = 0) (hops : SameOperands s t)
    (h : SameOutputs s t) : SameOutputs (effect c i s) (effect c i t) := by
  have hlen := lenInRange_of_code i s hcode
  obtain ⟨-, hwidth, -, -⟩ := id hops
  cases i with
  | nop => exact h
  | crc =>
    simp only [lenInRange, decide_eq_true_eq] at hlen
    obtain ⟨-, hrest⟩ := h
    refine ⟨?_, hrest⟩
    simp only [effect, crcEffect, inputBytes_congr hops hlen]
  | frame =>
    simp only [lenInRange, decide_eq_true_eq] at hlen
    simp only [effect, frameEffect, inputBytes_congr hops (by omega)]
    exact sameOutputs_storeFrame _ h
  | encode =>
    simp only [lenInRange, decide_eq_true_eq] at hlen
    simp only [effect, encodeEffect, inputBytes_congr hops (by omega), unitWidthOperand, hwidth]
    exact sameOutputs_storePulses _ h
  | frameEnc =>
    simp only [lenInRange, decide_eq_true_eq] at hlen
    simp only [effect, frameEncEffect, inputBytes_congr hops (by omega), unitWidthOperand, hwidth]
    exact sameOutputs_storePulses _ (sameOutputs_storeFrame _ h)
  | expand =>
    simp only [lenInRange, decide_eq_true_eq] at hlen
    exact sameOutputs_expandEffect c hops h (by omega)

theorem sameOperands_symm (h : SameOperands s t) : SameOperands t s := by
  obtain ⟨hlen, hwidth, htime, hbytes⟩ := h
  exact ⟨hlen.symm, hwidth.symm, htime.symm, fun a hlo hhi => (hbytes a hlo hhi).symm⟩

theorem sameOperands_trans {u : State} (h : SameOperands s t) (h' : SameOperands t u) : SameOperands s u := by
  obtain ⟨hlen, hwidth, htime, hbytes⟩ := h
  obtain ⟨hlen', hwidth', htime', hbytes'⟩ := h'
  exact ⟨hlen'.trans hlen, hwidth'.trans hwidth, htime'.trans htime,
    fun a hlo hhi => (hbytes' a hlo hhi).trans (hbytes a hlo hhi)⟩

/-- The same operands and outputs before an execute step give the same outputs and code after it. -/
theorem exec_congr (i : Instr) (hops : SameOperands s t) (h : SameOutputs s t) :
    ∃ s' t', exec i s = .next s' ∧ exec i t = .next t' ∧ SameOutputs s' t' ∧ t'.errCode = s'.errCode := by
  have hcodes := codeOf_congr i hops
  by_cases hcode : codeOf i s = 0
  · exact ⟨_, _, exec_ok i s hcode, exec_ok i t (hcodes.trans hcode), sameOutputs_effect _ hcode hops h, rfl⟩
  · exact ⟨_, _, exec_rejected i s hcode, exec_rejected i t (by rwa [hcodes]), h, hcodes⟩

end

/-- Settles O55: an input during BUSY leaves operands and outputs, which decide what the operation leaves. -/
theorem accessDuringBusyCannotChangeTheResult : Obligations.AccessDuringBusyCannotChangeTheResult := by
  intro s s1 x i hheld hbusy hx hs1
  obtain ⟨hops, hout, -⟩ := busyWindow_applyInput hheld hbusy hx hs1
  obtain ⟨t, t1, ht, ht1, houts, hcode⟩ := exec_congr i hops hout
  obtain ⟨hkeep, -⟩ := operationsKeepOperandsAndControl i s t ht
  obtain ⟨hkeep1, -⟩ := operationsKeepOperandsAndControl i s1 t1 ht1
  exact ⟨t, t1, ht, ht1, houts,
    sameOperands_trans (sameOperands_symm hkeep) (sameOperands_trans hops hkeep1), hcode⟩

/-! ### The free values of unwritten storage (R45, R215; log 1) -/

/-- The state with another count epoch. -/
def withEpoch (e : Nat) (s : State) : State := { s with epoch := e }

/-- Input bytes that have all been written do not depend on the count epoch. -/
theorem inputBytes_withEpoch (e : Nat) {s : State} (h : inputWritten s = true) :
    inputBytes (withEpoch e s) = inputBytes s := by
  refine bytesAt_congr _ s _ _ fun k hk => ?_
  have hwritten : (s.mem.lookup (inBufBase + k)).isSome = true :=
    List.all_eq_true.mp h k (List.mem_range.mpr hk)
  obtain ⟨b, hb⟩ := Option.isSome_iff_exists.mp hwritten
  simp only [byteAt, withEpoch, hb, Option.getD_some]

theorem storeSlots_withEpoch (c : Config) (time e : Nat) (r : List Byte) (s : State) :
    storeSlots c time r (withEpoch e s) = withEpoch e (storeSlots c time r s) := by
  unfold storeSlots
  generalize List.finRange 16 = l
  induction l generalizing s with
  | nil => rfl
  | cons i l ih =>
    have hslot : storeSlot c time r (withEpoch e s) i = withEpoch e (storeSlot c time r s i) := by
      unfold storeSlot
      split <;> rfl
    rw [List.foldl_cons, List.foldl_cons, hslot, ih]

theorem effect_withEpoch (c : Config) (i : Instr) (e : Nat) {s : State} (h : inputWritten s = true) :
    effect c i (withEpoch e s) = withEpoch e (effect c i s) := by
  have hin := inputBytes_withEpoch e h
  cases i with
  | nop => rfl
  | crc =>
    simp only [effect, crcEffect, hin]
    rfl
  | frame =>
    simp only [effect, frameEffect, hin]
    rfl
  | encode =>
    simp only [effect, encodeEffect, hin]
    rfl
  | frameEnc =>
    simp only [effect, frameEncEffect, hin]
    rfl
  | expand =>
    simp only [effect, expandEffect, hin, storeSlots_withEpoch]
    rfl

/-- Settles O56: the code depends on LEN and UNIT_WIDTH alone, and the effect on the input bytes, which are written. -/
theorem writtenInputsDecideTheResult : Obligations.WrittenInputsDecideTheResult := by
  intro i s e h
  by_cases hcode : codeOf i s = 0
  · refine ⟨_, exec_ok i s hcode, (exec_ok i (withEpoch e s) hcode).trans ?_⟩
    rw [effect_withEpoch _ i e h]
    rfl
  · exact ⟨_, exec_rejected i s hcode, exec_rejected i (withEpoch e s) hcode⟩

end Sys2Proof.Machine
end

section
/-! SUPPORT. The results of each operation under any configuration, and FRAME_ENC: the frame of the input and the pulses
of that frame, which is FRAME and then ENCODE of what FRAME left (R8, R158). -/

namespace Sys2Proof.Machine

open Sys2Proof.Safety

/-! ### What the stores leave (R143, R157) -/

/-- A stored frame of a payload of `n` bytes, read back, and what its store leaves alone. -/
theorem storeFrame_results {f : List Byte} {n : Nat} (s : State) (hf : f.length = n + 2) (hn : n ≤ 112) :
    bytesAt (storeFrame f s) 0x180 (n + 2) = f ∧ (storeFrame f s).outLen.toNat = n + 2 ∧
    (storeFrame f s).result = byteAt (storeFrame f s) (0x180 + n + 1) ∧
    ∀ a, a < 0x180 ∨ 0x180 + (n + 2) ≤ a → byteAt (storeFrame f s) a = byteAt s a := by
  have hlast := storeFrame_byteAt_last (n := n + 1) s hf
  rw [← hf]
  exact ⟨storeFrame_bytesAt f s, storeFrame_outLen_toNat s (by omega), hlast.symm, storeFrame_byteAt f s⟩

/-- Stored durations of a width of 16 bits and at most 128 bytes, read back, and what their store leaves alone. -/
theorem storePulses_results (c : Config) {bs : List Byte} (w : Half) (s : State) (hb : bs.length ≤ 128) {d : List Nat}
    (hd : d = pulseEncode c.stopEachByte bs w.toNat) :
    (storePulses d s).pulseCount.toNat = d.length ∧
    (pulsesAt (storePulses d s) d.length).map BitVec.toNat = d ∧
    ∀ a, a < 0x2000 ∨ 0x2000 + 4 * d.length ≤ a → byteAt (storePulses d s) a = byteAt s a := by
  obtain ⟨hcount, hfits⟩ := pulseEncode_half_fits c.stopEachByte w hb
  subst hd
  exact ⟨storePulses_pulseCount_toNat s hcount, storePulses_durations s hfits, storePulses_byteAt _ s⟩

/-! ### FRAME_ENC (R158) -/

/-- LEN is checked before UNIT_WIDTH (R111). -/
theorem codeOf_frameEnc (s : State) :
    codeOf .frameEnc s = if s.len.toNat ≤ 112 then (if s.unitWidth = 0 then 3 else 0) else 2 := by
  by_cases hlen : s.len.toNat ≤ 112
  · simp [codeOf, lenInRange, needsUnitWidth, hlen]
  · simp [codeOf, lenInRange, hlen]

section
variable {s : State}

theorem execWith_frameEnc_of_operands (c : Config) (hlen : s.len.toNat ≤ 112) (hwidth : s.unitWidth ≠ 0) :
    execWith c .frameEnc s = .next (complete .ok (effect c .frameEnc s)) :=
  execWith_ok c .frameEnc s (by rw [codeOf_frameEnc, if_pos hlen, if_neg hwidth])

theorem exec_frameEnc_of_len_gt (hlen : 112 < s.len.toNat) : exec .frameEnc s = .next (rejectedWith 2 s) := by
  have hcode : codeOf .frameEnc s = 2 := by rw [codeOf_frameEnc, if_neg (Nat.not_le.mpr hlen)]
  rw [exec_rejected .frameEnc s (by rw [hcode]; decide), hcode]

theorem exec_frameEnc_of_unitWidth_zero (hlen : s.len.toNat ≤ 112) (hwidth : s.unitWidth = 0) :
    exec .frameEnc s = .next (rejectedWith 3 s) := by
  have hcode : codeOf .frameEnc s = 3 := by rw [codeOf_frameEnc, if_pos hlen, if_pos hwidth]
  rw [exec_rejected .frameEnc s (by rw [hcode]; decide), hcode]

/-- FRAME_ENC in range: OUT_BUF, OUT_LEN and RESULT hold the frame, PULSE_BUF and PULSE_COUNT its durations, and nothing
else changes but by the completion. -/
theorem execWith_frameEnc_answers (c : Config) (hlen : s.len.toNat ≤ 112) (hwidth : s.unitWidth ≠ 0) :
    ∃ t f d, execWith c .frameEnc s = .next t ∧
      f = frame c.crcTable (inBytes s s.len.toNat) ∧ d = pulseEncode c.stopEachByte f s.unitWidth.toNat ∧
      bytesAt t 0x180 (s.len.toNat + 2) = f ∧ t.outLen.toNat = s.len.toNat + 2 ∧
      t.result = byteAt t (0x180 + s.len.toNat + 1) ∧
      t.pulseCount.toNat = d.length ∧ (pulsesAt t d.length).map BitVec.toNat = d ∧
      (∀ a, (a < 0x180 ∨ 0x180 + (s.len.toNat + 2) ≤ a) → (a < 0x2000 ∨ 0x2000 + 4 * d.length ≤ a) →
        byteAt t a = byteAt s a) ∧
      t = { s with mem := t.mem, outLen := t.outLen, result := t.result, pulseCount := t.pulseCount, errCode := 0,
                   busy := false, done := true, engine := .idle } := by
  refine ⟨_, _, _, execWith_frameEnc_of_operands c hlen hwidth, rfl, rfl, ?_⟩
  have hlength : (frame c.crcTable (inBytes s s.len.toNat)).length = s.len.toNat + 2 := by
    rw [frame_length, inBytes_length]
  rw [effect_frameEnc, frameOf, pulsesOf]
  generalize frame c.crcTable (inBytes s s.len.toNat) = f at hlength ⊢
  obtain ⟨hframe, houtLen, hresult, hkeepF⟩ := storeFrame_results s hlength hlen
  obtain ⟨hcount, hdurations, hkeepP⟩ :=
    storePulses_results c s.unitWidth (storeFrame f s) (bs := f) (by omega) rfl
  generalize pulseEncode c.stopEachByte f s.unitWidth.toNat = d at hcount hdurations hkeepP ⊢
  refine ⟨?frame, houtLen, ?result, hcount, hdurations, fun a haF haP => (hkeepP a haP).trans (hkeepF a haF), rfl⟩
  case frame => exact (storePulses_bytesAt d _ _ _ (by simp only [pulseBufBase]; omega)).trans hframe
  case result => exact hresult.trans (hkeepP _ (.inl (by omega))).symm

end

/-- The worked pulses of R158: the first three durations, and their number. -/
theorem pulseEncode_frame_example :
    (pulseEncode false [0x92, 0x24, 0x62, 0x6A, 0x3C] 417).take 3 = [834, 417, 834] ∧
    (pulseEncode false [0x92, 0x24, 0x62, 0x6A, 0x3C] 417).length = 24 := by decide

/-- Settles O35: in range FRAME_ENC gives its results under this hardware's configuration; a failing check rejects it
with the code of the first one. -/
theorem frameEncWritesFrameAndPulses : Obligations.FrameEncWritesFrameAndPulses :=
  ⟨fun _ => execWith_frameEnc_answers Config.hardware, fun _ => exec_frameEnc_of_len_gt,
    fun _ => exec_frameEnc_of_unitWidth_zero, by decide, reservedBitsAreIllegal 4, frame_example,
    pulseEncode_frame_example⟩

/-- The state with `bs` copied to IN_BUF and LEN their number. -/
def loadInput (bs : List Byte) (s : State) : State :=
  { storeBytes 0x100 bs s with len := BitVec.ofNat 8 bs.length }

/-- Loading IN_BUF changes no output. -/
theorem sameOutputs_loadInput {bs : List Byte} (s : State) (hb : bs.length ≤ 128) : SameOutputs (loadInput bs s) s :=
  ⟨rfl, rfl, rfl, rfl, rfl, rfl, fun a ha => (byteAt_storeBytes_outside 0x100 bs s a (.inr (by omega))).symm⟩

/-- ENCODE of a loaded input stores the pulses of that input. -/
theorem exec_encode_loadInput {bs : List Byte} {s : State} (hlo : 1 ≤ bs.length) (hhi : bs.length ≤ 128)
    (hwidth : s.unitWidth ≠ 0) :
    exec .encode (loadInput bs s) =
      .next (complete .ok (storePulses (pulseEncode false bs s.unitWidth.toNat) (loadInput bs s))) := by
  have hlen : (loadInput bs s).len.toNat = bs.length := by
    rw [loadInput, BitVec.toNat_ofNat, Nat.mod_eq_of_lt (by omega)]
  have hin : inBytes (loadInput bs s) bs.length = bs := bytesAt_storeBytes 0x100 bs s
  rw [exec_encode_of_operands (s := loadInput bs s) (by omega) hwidth, hlen, hin]
  rfl

/-- Settles O36: after FRAME and the copy, the outputs are those FRAME_ENC's frame leaves and the input of ENCODE is
that frame, so both end with the same pulses stored over the same outputs. -/
theorem frameEncIsFrameThenEncode : Obligations.FrameEncIsFrameThenEncode := by
  intro s hlen hwidth
  have hframe := exec_frame_of_len_le hlen
  have hframeEnc : exec .frameEnc s = .next (complete .ok (effect Config.hardware .frameEnc s)) :=
    execWith_frameEnc_of_operands Config.hardware hlen hwidth
  have hlow : ∀ a, a < 0x180 → byteAt (effect Config.hardware .frameEnc s) a = byteAt s a :=
    effect_byteAt_low Config.hardware .frameEnc s
  have hlength : (frame Config.hardware.crcTable (inBytes s s.len.toNat)).length = s.len.toNat + 2 := by
    rw [frame_length, inBytes_length]
  rw [effect_frameEnc, frameOf] at hframeEnc hlow
  generalize frame Config.hardware.crcTable (inBytes s s.len.toNat) = f at hframe hframeEnc hlow hlength
  have hcopied : bytesAt (complete .ok (storeFrame f s)) 0x180 f.length = f := storeFrame_bytesAt f s
  have hencode := exec_encode_loadInput (bs := f) (s := complete .ok (storeFrame f s)) (by omega) (by omega) hwidth
  have houts : SameOutputs (loadInput f (complete .ok (storeFrame f s))) (storeFrame f s) :=
    sameOutputs_loadInput (complete .ok (storeFrame f s)) (by omega)
  refine ⟨_, _, loadInput f (complete .ok (storeFrame f s)), _, hframeEnc, hframe, ?_, hencode,
    sameOutputs_storePulses _ houts, rfl, rfl, rfl, hlow⟩
  rw [← hlength, hcopied]
  rfl

/-! ### Every operation under any configuration (R8) -/

/-- Settles O58: the answer of each operation in its ranges, from what its stores leave. -/
theorem operationsUseTheConfiguredParameters : Obligations.OperationsUseTheConfiguredParameters := by
  intro c s
  refine ⟨fun i => execWith_rejected c i s, execWith_ok c .nop s (codeOf_nop s), fun hlen => ?crc, fun hlen => ?frame,
    fun hlo hhi hwidth => ?encode, execWith_frameEnc_answers c, fun hlen => ?expand⟩
  case crc => exact execWith_ok c .crc s (by rw [codeOf_crc, if_pos hlen])
  case frame =>
    refine ⟨_, execWith_ok c .frame s (by rw [codeOf_frame, if_pos hlen]), ?_⟩
    have hlength : (frame c.crcTable (inBytes s s.len.toNat)).length = s.len.toNat + 2 := by
      rw [frame_length, inBytes_length]
    rw [effect_frame]
    generalize frame c.crcTable (inBytes s s.len.toNat) = f at hlength ⊢
    obtain ⟨hframe, houtLen, hresult, hkeep⟩ := storeFrame_results s hlength hlen
    exact ⟨hframe, houtLen, hresult, hkeep, rfl⟩
  case encode =>
    refine ⟨_, _, execWith_ok c .encode s (by rw [codeOf_encode, if_pos ⟨hlo, hhi⟩, if_neg hwidth]), rfl, ?_⟩
    obtain ⟨hcount, hdurations, hkeep⟩ :=
      storePulses_results c s.unitWidth s (bs := inBytes s s.len.toNat) (by rwa [inBytes_length]) rfl
    exact ⟨hcount, hdurations, hkeep, rfl⟩
  case expand =>
    exact ⟨_, execWith_ok c .expand s (by rw [codeOf_expand, if_pos hlen]), bucketExpanded_expandEffect c hlen,
      fun _ => expandEffect_byteAt_outside c hlen, complete_expandEffect_eq c s⟩

end Sys2Proof.Machine
end

section
/-! SUPPORT. The register window, location by location: which offset names which location, what a read gives and what a
write leaves, with BUSY 0 and during BUSY (R70 to R79). -/

namespace Sys2Proof.Machine

open Sys2Proof.Safety

/-! ### The offsets of the locations (10_state.md §2) -/

/-- The word at the offset of a location names that location. -/
theorem locate_locOffset (l : Loc) (hl : l ≠ .reserved) : locate (BitVec.ofNat 14 (locOffset l)) = l := by
  refine locate_of_offset _ l hl (wordOffset_ofNat _ ?_ ?_) <;> cases l <;> simp only [locOffset] <;> omega

/-- The ranges of R33 to R37 and R39 to R41 name output locations. -/
theorem isOutput_locate {off : Offset}
    (h : (0x01C ≤ wordOffset off ∧ wordOffset off ≤ 0x028) ∨ (0x040 ≤ wordOffset off ∧ wordOffset off ≤ 0x0BC) ∨
      (0x180 ≤ wordOffset off ∧ wordOffset off ≤ 0x1FC) ∨ (0x800 ≤ wordOffset off ∧ wordOffset off ≤ 0xFFC) ∨
      (0x2000 ≤ wordOffset off ∧ wordOffset off ≤ 0x33FC)) : isOutput (locate off) = true := by
  rcases locate_spec off with ⟨-, hreserved⟩ | ⟨hne, hoff⟩
  · unfold reservedOffset at hreserved
    omega
  · rw [hoff] at h
    cases hloc : locate off with
    | reserved => exact absurd hloc hne
    | result | outLen | pulseCount | expValid | expTime _ | expLen _ | outBuf _ | expFrame _ _ | pulseBuf _ => rfl
    | id | cmd | status | irqEn | len | unitWidth | absTime | inBuf _ =>
      rw [hloc] at h
      simp only [locOffset] at h
      omega

/-! ### Writes to read-only locations (R79) -/

theorem writeLoc_of_output {l : Loc} (h : isOutput l = true) (v : Word) (s : State) : writeLoc l v s = s := by
  cases l with
  | result | outLen | pulseCount | expValid | expTime _ | expLen _ | outBuf _ | expFrame _ _ | pulseBuf _ => rfl
  | id | cmd | status | irqEn | len | unitWidth | absTime | inBuf _ | reserved => cases h

/-- Settles O21: each of these offsets names ID or an output location, whose write does nothing. -/
theorem readOnlyLocationsIgnoreWrites : Obligations.ReadOnlyLocationsIgnoreWrites := by
  intro s off v h
  rcases h with hid | hout
  · rw [memWrite, locate_of_offset off .id Loc.noConfusion hid, writeLoc]
  · exact writeLoc_of_output (isOutput_locate hout) v s

/-! ### Operand registers (R30 to R32) -/

/-- The low `n` bits of a word, with zeros above, are the word masked with those bits. -/
theorem setWidth_extractLsb'_zero (n : Nat) (v : Word) :
    (v.extractLsb' 0 n).setWidth 32 = v &&& BitVec.setWidth 32 (BitVec.allOnes n) := by
  refine BitVec.eq_of_getLsbD_eq fun i hi => ?_
  simp only [BitVec.getLsbD_setWidth, BitVec.getLsbD_extractLsb', BitVec.getLsbD_and, BitVec.getLsbD_allOnes, hi,
    decide_true, Bool.true_and, Nat.zero_add]
  exact Bool.and_comm _ _

/-- Settles O13: the write is not dropped, and the register is no output, so it reads its field. -/
theorem operandRegistersStoreDefinedBits : Obligations.OperandRegistersStoreDefinedBits := by
  intro s v hheld hidle
  have hlen : memWrite 0x010 v s = { s with len := v.extractLsb' 0 8 } :=
    guardedWrite_idle (fun u => { u with len := v.extractLsb' 0 8 }) s hheld hidle
  have hwidth : memWrite 0x014 v s = { s with unitWidth := v.extractLsb' 0 16 } :=
    guardedWrite_idle (fun u => { u with unitWidth := v.extractLsb' 0 16 }) s hheld hidle
  have htime : memWrite 0x018 v s = { s with absTime := v } :=
    guardedWrite_idle (fun u => { u with absTime := v }) s hheld hidle
  refine ⟨⟨hlen, ?_⟩, ⟨hwidth, ?_⟩, ⟨htime, ?_⟩⟩
  · rw [hlen, memRead_of_not_output 0x010 _ rfl]
    exact setWidth_extractLsb'_zero 8 v
  · rw [hwidth, memRead_of_not_output 0x014 _ rfl]
    exact setWidth_extractLsb'_zero 16 v
  · rw [htime, memRead_of_not_output 0x018 _ rfl]
    rfl

/-! ### Words of IN_BUF (R70) -/

theorem wordBytes_getElem (v : Word) (k : Nat) (hk : k < 4) : (wordBytes v)[k]'hk = v.extractLsb' (8 * k) 8 := by
  interval_cases k <;> rfl

/-- Settles O22: the write stores the word's bytes at its place, lowest first, and the read joins them again. -/
theorem inBufWordWriteStoresLittleEndian : Obligations.InBufWordWriteStoresLittleEndian := by
  intro s v m hm hheld hidle
  have hloc : locate (BitVec.ofNat 14 (0x100 + 4 * m)) = .inBuf ⟨m, hm⟩ :=
    locate_locOffset (.inBuf ⟨m, hm⟩) Loc.noConfusion
  have hwrite : memWrite (BitVec.ofNat 14 (0x100 + 4 * m)) v s = storeBytes (0x100 + 4 * m) (wordBytes v) s := by
    rw [memWrite, hloc, writeLoc, guardedWrite_idle _ s hheld hidle, hheld, if_neg Bool.false_ne_true, inBufBase]
  have hstored : ∀ k, (hk : k < 4) →
      byteAt (storeBytes (0x100 + 4 * m) (wordBytes v) s) (0x100 + 4 * m + k) = (wordBytes v)[k]'hk := fun k hk =>
    byteAt_storeBytes_inside _ (wordBytes v) s k hk
  refine ⟨_, hwrite, rfl, fun k hk => (hstored k hk).trans (wordBytes_getElem v k hk),
    byteAt_storeBytes_outside _ (wordBytes v) s, ?_⟩
  rw [memRead_of_not_output _ _ (by rw [hloc]; rfl), hloc]
  exact wordAt_eq_of_bytes _ _ v hstored

/-! ### Reads (R76 to R78) -/

theorem locValue_noteRead (l : Loc) (off : Offset) (s : State) : locValue l (noteRead off s) = locValue l s := by
  cases l <;> rfl

/-- Settles O23: a read that is answered is recorded, and the record is no part of what a location holds. -/
theorem readsChangeNoBlockState : Obligations.ReadsChangeNoBlockState := by
  intro s t off ht
  cases hostRead_next off s t ht
  refine ⟨rfl, fun hspec => ⟨by rw [noteRead_draws, hspec, if_neg Bool.false_ne_true], ?_⟩⟩
  have hspec' : readUnspecified off (noteRead off s) = false := hspec
  rw [memRead, memRead, hspec, hspec', if_neg Bool.false_ne_true, if_neg Bool.false_ne_true, locValue_noteRead]

/-- A location that is no output reads its value, at its own offset (R77, R78). -/
theorem memRead_locOffset {l : Loc} (hl : l ≠ .reserved) (s : State) (h : isOutput l = false ∨ s.busy = false) :
    memRead (BitVec.ofNat 14 (locOffset l)) s = locValue l s := by
  have hloc := locate_locOffset l hl
  rcases h with hout | hidle
  · rw [memRead_of_not_output _ s (by rw [hloc, hout]), hloc]
  · rw [memRead_of_idle _ s hidle, hloc]

/-- ID, CMD, STATUS, IRQ_EN and the operand registers are no outputs: they read their values whatever BUSY is. -/
theorem memRead_registers (s : State) :
    memRead 0x000 s = 0x39580001 ∧ memRead 0x004 s = s.cmdLast ∧ memRead 0x008 s = statusWord s ∧
    memRead 0x00C s = (if s.ie then 1 else 0) ∧ memRead 0x010 s = s.len.setWidth 32 ∧
    memRead 0x014 s = s.unitWidth.setWidth 32 ∧ memRead 0x018 s = s.absTime := by
  exact ⟨memRead_of_not_output 0x000 s rfl, memRead_of_not_output 0x004 s rfl, memRead_status s,
    memRead_of_not_output 0x00C s rfl, memRead_of_not_output 0x010 s rfl, memRead_of_not_output 0x014 s rfl,
    memRead_of_not_output 0x018 s rfl⟩

/-- Settles O24: what is no output reads its value, and a read of an output draws one free word. -/
theorem readsDuringBusy : Obligations.ReadsDuringBusy := by
  intro s hbusy
  obtain ⟨hid, hcmd, hstatus, hirqEn, hlen, hwidth, htime⟩ := memRead_registers s
  refine ⟨hid, hcmd, hstatus, hirqEn, hlen, hwidth, htime, fun m hm => ?_, fun off hoff => ?_⟩
  · exact memRead_locOffset (l := .inBuf ⟨m, hm⟩) Loc.noConfusion s (.inl rfl)
  · have hout := isOutput_locate hoff
    have hspec : readUnspecified off s = true := by rw [readUnspecified, hbusy, hout, Bool.and_true]
    have hne : locate off ≠ .status := fun h => by
      rw [h] at hout
      cases hout
    rw [hostRead_of_not_status hne, noteRead, memRead, hspec, if_pos rfl, if_pos rfl]

/-- The byte in place `k` of the word at an offset is the byte `k` above it (R70, R77). -/
theorem wordAt_extractLsb' (s : State) (a : Nat) {k : Nat} (hk : k < 4) :
    (wordAt s a).extractLsb' (8 * k) 8 = byteAt s (a + k) := by
  refine BitVec.eq_of_getLsbD_eq fun i hi => ?_
  simp only [wordAt, BitVec.getLsbD_extractLsb', BitVec.getLsbD_append, hi, decide_true, Bool.true_and]
  interval_cases k
  · rw [if_pos (by omega), Nat.mul_zero, Nat.zero_add, Nat.add_zero]
  · rw [if_neg (by omega), if_pos (by omega)]
    congr 1
    omega
  · rw [if_neg (by omega), if_neg (by omega), if_pos (by omega)]
    congr 1
    omega
  · rw [if_neg (by omega), if_neg (by omega), if_neg (by omega)]
    congr 1
    omega

/-- Settles O25: with BUSY 0 a read gives what its location holds, and a storage word is its four bytes joined. -/
theorem outputsReadWhatTheyHold : Obligations.OutputsReadWhatTheyHold := by
  intro s hidle
  have hread : ∀ l, l ≠ .reserved → memRead (BitVec.ofNat 14 (locOffset l)) s = locValue l s := fun l hl =>
    memRead_locOffset hl s (.inr hidle)
  obtain ⟨hid, hcmd, hstatus, hirqEn, hlen, hwidth, htime⟩ := memRead_registers s
  refine ⟨hid, hcmd, hstatus, hirqEn, hlen, hwidth, htime, fun m k hm hk => ?inBuf, hread .result Loc.noConfusion,
    hread .outLen Loc.noConfusion, hread .pulseCount Loc.noConfusion, hread .expValid Loc.noConfusion,
    fun i => ⟨hread (.expTime i) Loc.noConfusion, hread (.expLen i) Loc.noConfusion⟩, fun m k hm hk => ?outBuf,
    fun i m k hm hk => ?expFrame, fun j hj => hread (.pulseBuf ⟨j, hj⟩) Loc.noConfusion⟩
  case inBuf =>
    rw [← wordAt_extractLsb' s _ hk]
    exact congrArg _ (hread (.inBuf ⟨m, hm⟩) Loc.noConfusion)
  case outBuf =>
    rw [← wordAt_extractLsb' s _ hk]
    exact congrArg _ (hread (.outBuf ⟨m, hm⟩) Loc.noConfusion)
  case expFrame =>
    rw [← wordAt_extractLsb' s _ hk]
    exact congrArg _ (hread (.expFrame i ⟨m, hm⟩) Loc.noConfusion)

/-! ### STATUS (R23) -/

/-- Bit `i` of STATUS: a flag in each of bits 0 to 3, and ERRCODE from bit 4 on. -/
theorem statusWord_getLsbD (s : State) {i : Nat} (hi : i < 32) :
    (statusWord s).getLsbD i =
      ((s.busy && decide (0 = i)) || (s.done && decide (1 = i)) || (s.err && decide (2 = i)) ||
        (s.werr && decide (3 = i)) || (!decide (i < 4) && s.errCode.getLsbD (i - 4))) := by
  have hcode : (s.errCode.setWidth 32 <<< 4).getLsbD i = (!decide (i < 4) && s.errCode.getLsbD (i - 4)) := by
    rw [BitVec.getLsbD_shiftLeft, BitVec.getLsbD_setWidth]
    simp [hi, show i - 4 < 32 by omega]
  simp only [statusWord, BitVec.getLsbD_or, hcode]
  simp only [BitVec.getLsbD_eq_getElem hi, flagBit_getElem]

theorem statusWord_extractLsb'_errCode (s : State) : (statusWord s).extractLsb' 4 4 = s.errCode := by
  refine BitVec.eq_of_getLsbD_eq fun i hi => ?_
  rw [BitVec.getLsbD_extractLsb', statusWord_getLsbD s (by omega)]
  simp [hi, show ∀ n < 4, n ≠ 4 + i by omega]

theorem statusWord_extractLsb'_zero (s : State) : (statusWord s).extractLsb' 8 24 = 0 := by
  refine BitVec.eq_of_getLsbD_eq fun i hi => ?_
  have hcode : s.errCode.getLsbD (8 + i - 4) = false := BitVec.getLsbD_of_ge _ _ (by omega)
  rw [BitVec.getLsbD_extractLsb', statusWord_getLsbD s (by omega), hcode]
  simp [show ∀ n < 4, n ≠ 8 + i by omega]

/-- A STATUS write of 1 clears its flag (W1C). -/
theorem clearFlags_eq (v : Word) (s : State) :
    clearFlags v s = { s with
      done := if v.getLsbD 1 then false else s.done
      err := if v.getLsbD 2 then false else s.err
      werr := if v.getLsbD 3 then false else s.werr } := by
  have hflag : ∀ b clear : Bool, (b && !clear) = if clear then false else b := by decide
  simp only [clearFlags, hflag]

/-- Settles O11, from the fields packed in STATUS and the effect of the write. -/
theorem statusRegisterFields : Obligations.StatusRegisterFields := by
  refine ⟨fun s => ?_, fun s v => clearFlags_eq v s, memRead_reset (l := .status) rfl⟩
  rw [memRead_status]
  refine ⟨?_, ?_, statusWord_getLsbD_err s, statusWord_getLsbD_werr s, statusWord_extractLsb'_errCode s,
    statusWord_extractLsb'_zero s⟩
  · exact (statusWord_getLsbD s (by decide)).trans (by simp)
  · exact (statusWord_getLsbD s (by decide)).trans (by simp)

/-! ### The bus and POLL (R72, R97) -/

theorem windowOffset_inside (off : Offset) : windowOffset (Config.base + off.toNat) = some off := by
  have hlt : off.toNat < 0x4000 := off.isLt
  rw [windowOffset, if_pos (by omega), Nat.add_sub_cancel_left, BitVec.ofNat_toNat, BitVec.setWidth_eq]

theorem windowOffset_outside {a : Nat} (h : a < Config.base ∨ Config.base + 0x4000 ≤ a) : windowOffset a = none := by
  rw [windowOffset, if_neg (by omega)]

/-- Settles O26: inside the window an address is its offset, outside it none. -/
theorem busAddressesReachOnlyTheWindow : Obligations.BusAddressesReachOnlyTheWindow := by
  intro s a v
  refine ⟨fun off ha => ?_, fun ha => ?_⟩
  · subst ha
    simp only [busWrite, busRead, windowOffset_inside, and_self]
  · simp only [busWrite, busRead, windowOffset_outside ha, and_self]

/-- Settles O27: the read is answered, and the word read decides whether the POLL is pending again. -/
theorem pollRepeatsUntilItMatches : Obligations.PollRepeatsUntilItMatches := by
  intro s off mask val hcode
  have hmeets : meetsReservedErrCode off s = false := by
    rw [meetsReservedErrCode, Bool.and_eq_false_iff]
    exact .inr (decide_eq_false (Nat.not_lt.mpr hcode))
  by_cases hmatch : memRead off s &&& mask = val
  · refine ⟨noteRead off s, ?_, rfl, rfl, fun _ => rfl, fun hne => absurd hmatch hne⟩
    rw [hostPoll, hmeets, if_neg Bool.false_ne_true, if_pos hmatch]
  · refine ⟨{ noteRead off s with pending := .poll off mask val :: s.pending }, ?_, rfl, rfl,
      fun heq => absurd heq hmatch, fun _ => rfl⟩
    rw [hostPoll, hmeets, if_neg Bool.false_ne_true, if_neg hmatch]

end Sys2Proof.Machine
end

section
/-! SUPPORT. The CRC of a message with its CRC, the bytes of a frame, and the sixteen frames of one raw command (R133,
R134, R146, R173, R178). -/

namespace Sys2Proof.Machine

/-! ### The CRC (R133, R134) -/

/-- A byte XOR itself is 0, so appending the CRC looks entry 0 up. -/
theorem crc_residue {T : Vector Byte 256} (hT : tableAt T 0 = 0) (m : List Byte) : crc T (m ++ [crc T m]) = 0 := by
  rw [crc_append, BitVec.xor_self]
  exact hT

theorem tableAt_hardware_zero : tableAt Config.hardware.crcTable 0 = 0 := by decide

/-- Settles O40, from the lookup of entry 0. -/
theorem crcResidueIsZero : Obligations.CrcResidueIsZero := ⟨fun _ m hT => crc_residue hT m, tableAt_hardware_zero⟩

theorem crc_frame_example : crc Config.hardware.crcTable [0x92, 0x24, 0x62, 0x6A] = 0x3C := by decide

/-- Settles O42: under the alternative table the accumulator goes from 0 through 4B, 14 and F8 back to 4B. -/
theorem crcWorkedExamples : Obligations.CrcWorkedExamples := by
  refine ⟨crc_frame_example, crc_example, fun T hT => ?_⟩
  have hfirst : tableAt T 0x92 = 0x4B := (hT 0x92).trans (by decide)
  have hsecond : tableAt T (0x4B ^^^ 0x24) = 0x14 := (hT 0x6F).trans (by decide)
  have hthird : tableAt T (0x14 ^^^ 0x62) = 0xF8 := (hT 0x76).trans (by decide)
  calc crc T [0x92, 0x24, 0x62, 0x6A]
    _ = tableAt T (tableAt T (tableAt T (tableAt T 0x92 ^^^ 0x24) ^^^ 0x62) ^^^ 0x6A) := rfl
    _ = tableAt T (0xF8 ^^^ 0x6A) := by rw [hfirst, hsecond, hthird]
    _ = 0x4B := hfirst

/-! ### The bytes of a frame (R140, R146) -/

theorem frame_eq_append_crc (T : Vector Byte 256) (p : List Byte) :
    frame T p = (lengthByte p :: p) ++ [crc T (lengthByte p :: p)] := rfl

theorem frame_headD_toNat (T : Vector Byte 256) {p : List Byte} (hp : p.length ≤ 112) :
    ((frame T p).headD 0).toNat = p.length + 143 := by
  have hhead : (frame T p).headD 0 = lengthByte p := rfl
  rw [hhead, lengthByte, Config.lenOffset, BitVec.toNat_ofNat, Nat.mod_eq_of_lt (by omega)]

theorem frame_take (T : Vector Byte 256) (p : List Byte) : (frame T p).take (p.length + 1) = lengthByte p :: p := by
  rw [frame_eq_append_crc]
  exact List.take_left' rfl

theorem frame_payload (T : Vector Byte 256) (p : List Byte) : ((frame T p).drop 1).take p.length = p :=
  List.take_left' rfl

/-- Settles O41: the last two invariants are the residue rule on the bytes before the CRC byte. -/
theorem frameInvariants : Obligations.FrameInvariants := by
  intro p hp
  refine ⟨frameOf_length _ p, frame_headD_toNat _ hp, frame_payload _ p, ?_, crc_residue tableAt_hardware_zero _⟩
  rw [frameOf, frame_take, frame_getLastD]

/-! ### The sixteen frames of a raw command (R173, R178) -/

section
variable (T : Vector Byte 256) (r : List Byte)

theorem slotFrame_length (i : Fin 16) : (slotFrame T r i).length = r.length + 3 := by
  rw [slotFrame, frame_length, List.length_cons]

theorem slotFrame_rawCommand (i : Fin 16) : ((slotFrame T r i).drop 2).take r.length = r :=
  List.take_left' rfl

/-- From index 2 on a frame is the raw command and then the CRC byte. -/
theorem slotFrame_getElem?_add_two (i : Fin 16) (k : Nat) (hk : k ≠ r.length) :
    (slotFrame T r i)[k + 2]? = r[k]? := by
  have htail : (slotFrame T r i)[k + 2]? =
      (r ++ [crc T (lengthByte (delayCode i :: r) :: delayCode i :: r)])[k]? := rfl
  rw [htail]
  rcases Nat.lt_or_gt_of_ne hk with hlt | hgt
  · exact List.getElem?_append_left hlt
  · rw [List.getElem?_eq_none (by rw [List.length_append, List.length_singleton]; omega),
      List.getElem?_eq_none (by omega)]

end

/-- Settles O49: index 0 holds the length byte and the indices from 2 to before the CRC byte the raw command, of either
bucket. -/
theorem slotFramesDifferOnlyInCodeAndCrc : Obligations.SlotFramesDifferOnlyInCodeAndCrc := by
  intro r i j hr
  refine ⟨slotFrame_length _ r i, ?_, rfl, slotFrame_rawCommand _ r i, fun k hone hlast => ?_⟩
  · exact frame_headD_toNat _ (p := delayCode i :: r) (by rw [List.length_cons]; omega)
  · match k with
    | 0 => rfl
    | 1 => exact absurd rfl hone
    | k + 2 => rw [slotFrame_getElem?_add_two _ r i k (by omega), slotFrame_getElem?_add_two _ r j k (by omega)]

end Sys2Proof.Machine
end

section
/-! SUPPORT. The delay buckets: which are valid at a time, their mask, and their output times (R176, R177). -/

namespace Sys2Proof.Machine

/-! ### The valid buckets (R176) -/

/-- Bucket `i` is valid where at least `16 - i` hundreds fit the time. -/
theorem bucketValid_iff_le (t : Nat) (i : Fin 16) : bucketValid t i.val = true ↔ 16 - min 16 (t / 100) ≤ i.val := by
  rw [bucketValid_iff]
  omega

/-- Of sixteen buckets the last `n` are `n`. -/
theorem length_filter_last : ∀ n ≤ 16, ((List.finRange 16).filter (fun i => decide (16 - n ≤ i.val))).length = n := by
  decide

theorem getLsbD_mask (n : Nat) (i : Fin 16) : ((0xFFFF : Half) <<< n).getLsbD i.val = decide (n ≤ i.val) := by
  have hones : (0xFFFF : Half) = BitVec.allOnes 16 := rfl
  rw [hones, BitVec.getLsbD_shiftLeft, BitVec.getLsbD_allOnes, Bool.eq_iff_iff]
  simp [i.isLt, show i.val - n < 16 by omega]

/-- Settles O47: a bucket is valid from `16 - min(16, t/100)` on, which is where the shifted mask has its bits. -/
theorem validBucketsAreASuffix : Obligations.ValidBucketsAreASuffix := by
  intro t
  have hvalid : ∀ i : Fin 16, bucketValid t i.val = decide (16 - min 16 (t / 100) ≤ i.val) := fun i => by
    rw [Bool.eq_iff_iff, decide_eq_true_iff, bucketValid_iff_le]
  refine ⟨bucketValid_iff_le t, ?_, ?_⟩
  · simp only [hvalid]
    exact length_filter_last _ (Nat.min_le_left _ _)
  · refine BitVec.eq_of_getLsbD_eq fun i hi => ?_
    rw [validMask_getLsbD t ⟨i, hi⟩, getLsbD_mask _ ⟨i, hi⟩, hvalid]

/-! ### The output times (R177) -/

/-- A bucket's exact output time. -/
theorem bucket_eq (t i : Nat) : bucket t i = (t : Int) - ((16 - i) * 100 : Nat) := rfl

/-- Settles O48: the exact times are `t` less 100 for each bucket still to come, and a valid slot stores its own. -/
theorem outputTimesRiseByOneHundred : Obligations.OutputTimesRiseByOneHundred := by
  intro t
  have hslot : ∀ i : Fin 16, bucketValid t.toNat i = true →
      (16 - i.val) * 100 ≤ t.toNat ∧ (slotTime t.toNat i).toNat = t.toNat - (16 - i.val) * 100 := fun i hv =>
    ⟨(bucketValid_iff _ _).mp hv, slotTime_toNat _ i t.isLt hv⟩
  refine ⟨fun i hi => ?_, fun i hv => ?_, fun i j hij hv => ?_⟩
  · rw [bucket_eq, bucket_eq]
    omega
  · obtain ⟨hle, htime⟩ := hslot i hv
    rw [bucket_eq, htime]
    omega
  · obtain ⟨hle, htime⟩ := hslot i hv
    have hlt : i.val < j.val := hij
    have hvj : bucketValid t.toNat j = true := (bucketValid_iff _ _).mpr (by omega)
    obtain ⟨hlej, htimej⟩ := hslot j hvj
    exact ⟨hvj, by omega⟩

end Sys2Proof.Machine
end

section
/-! SUPPORT. Pulse lists: the encoder measures the maximal runs of the symbol stream (R156 (a), (b)), their number,
parity and sum (R156 (c) to (f)), and the bounds of R159. -/

namespace Sys2Proof.Machine

open Sys2Proof.Safety

/-! ### The symbol stream (R150, R152, R154) -/

/-- The stream of a non-empty input begins with the start symbol 0. -/
theorem exists_symbols_eq_cons (stopEach : Bool) {bs : List Byte} (h : bs ≠ []) :
    ∃ σ, symbols stopEach bs = false :: σ := by
  match bs with
  | [b] => exact ⟨_, rfl⟩
  | b :: b' :: bs => exact ⟨_, rfl⟩

theorem symbols_ne_nil (stopEach : Bool) (bs : List Byte) : symbols stopEach bs ≠ [] :=
  List.concat_ne_nil _ _

/-- The stream ends with the stop symbol 1. -/
theorem symbols_getLast (stopEach : Bool) (bs : List Byte) :
    (symbols stopEach bs).getLast (symbols_ne_nil stopEach bs) = true :=
  List.getLast_concat

/-! ### The encoder measures the runs (R156 (a)) -/

/-- The duration of a run of symbols. -/
def runDuration (w : Nat) (run : List Bool) : Nat := w * run.length

/-- Splitting into runs: an equal symbol joins the open run. -/
theorem splitByLoop_cons_same (σ : List Bool) (a : Bool) (g : List Bool) (gs : List (List Bool)) :
    List.splitBy.loop (· == ·) (a :: σ) a g gs = List.splitBy.loop (· == ·) σ a (a :: g) gs := by
  simp only [List.splitBy.loop, BEq.rfl]

/-- Splitting into runs: another symbol closes the open run and opens the next. -/
theorem splitByLoop_cons_change {a b : Bool} (h : a ≠ b) (σ : List Bool) (g : List Bool) (gs : List (List Bool)) :
    List.splitBy.loop (· == ·) (b :: σ) a g gs = List.splitBy.loop (· == ·) σ b [] ((a :: g).reverse :: gs) := by
  simp only [List.splitBy.loop, beq_false_of_ne h]

/-- The encoder's durations, newest first, are those of the runs `splitBy` has collected: the open run `a :: g` and the
closed runs `gs`, newest first. -/
theorem foldl_extendOrAppend_eq_runs (w : Nat) (σ : List Bool) (a : Bool) (g : List Bool) (gs : List (List Bool)) :
    (σ.foldl (extendOrAppend w) ⟨a, runDuration w (a :: g) :: gs.map (runDuration w)⟩).durations.reverse =
      (List.splitBy.loop (· == ·) σ a g gs).map (runDuration w) := by
  induction σ generalizing a g gs with
  | nil => simp [List.splitBy.loop, runDuration]
  | cons b σ ih =>
    rw [List.foldl_cons]
    by_cases hb : a = b
    · subst hb
      have hstep : extendOrAppend w ⟨a, runDuration w (a :: g) :: gs.map (runDuration w)⟩ a =
          ⟨a, runDuration w (a :: a :: g) :: gs.map (runDuration w)⟩ := by
        simp [extendOrAppend, runDuration, Nat.mul_add]
      rw [hstep, ih, splitByLoop_cons_same]
    · have hstep : extendOrAppend w ⟨a, runDuration w (a :: g) :: gs.map (runDuration w)⟩ b =
          ⟨b, runDuration w [b] :: ((a :: g).reverse :: gs).map (runDuration w)⟩ := by
        simp [extendOrAppend, runDuration, Ne.symm hb]
      rw [hstep, ih, splitByLoop_cons_change hb]

theorem pulseEncode_eq_runs (stopEach : Bool) (bs : List Byte) (w : Nat) :
    pulseEncode stopEach bs w = (symbolRuns (symbols stopEach bs)).map (runDuration w) := by
  obtain ⟨a, σ, hσ⟩ := List.exists_cons_of_ne_nil (symbols_ne_nil stopEach bs)
  have hstart : extendOrAppend w encoderStart a = ⟨a, [runDuration w [a]]⟩ := by
    simp [extendOrAppend, encoderStart, runDuration]
  rw [pulseEncode, hσ, List.foldl_cons, hstart]
  exact foldl_extendOrAppend_eq_runs w σ a [] []

/-! ### The runs alternate (R156 (b)) -/

theorem run_ne_nil {σ run : List Bool} (h : run ∈ symbolRuns σ) : run ≠ [] := List.ne_nil_of_mem_splitBy h

theorem eq_of_mem_run {σ run : List Bool} (h : run ∈ symbolRuns σ) {x y : Bool} (hx : x ∈ run) (hy : y ∈ run) :
    x = y := by
  have hchain : run.IsChain (· = ·) := (List.isChain_of_mem_splitBy h).imp fun _ _ => eq_of_beq
  exact List.Pairwise.forall_of_forall (fun _ _ => rfl) hchain.pairwise hx hy

theorem decide_odd_succ (r : Nat) : decide ((r + 1) % 2 = 1) = !decide (r % 2 = 1) := by
  rcases Nat.mod_two_eq_zero_or_one r with h | h <;> simp [Nat.add_mod, h]

/-- In a stream that begins with 0 the even runs are of 0 and the odd runs of 1: the symbol changes from run to run. -/
theorem symbol_of_run (σ : List Bool) (r : Nat) (hr : r < (symbolRuns (false :: σ)).length) :
    ∀ b ∈ (symbolRuns (false :: σ))[r], b = decide (r % 2 = 1) := by
  induction r with
  | zero =>
    intro b hb
    have hhead := List.head_head_splitBy (· == ·) (List.cons_ne_nil false σ)
    have hmem := List.head_mem (run_ne_nil (List.head_mem (List.ne_nil_of_length_pos hr)))
    rw [List.getElem_zero hr] at hb
    exact (eq_of_mem_run (List.head_mem (List.ne_nil_of_length_pos hr)) hb hmem).trans hhead
  | succ r ih =>
    intro b hb
    obtain ⟨hprev, hnext, hchange⟩ := List.isChain_iff_getElem.mp (List.isChain_getLast_head_splitBy _ _) r hr
    have hlast := ih (Nat.lt_of_succ_lt hr) _ (List.getLast_mem hprev)
    rw [eq_of_mem_run (List.getElem_mem hr) hb (List.head_mem hnext), decide_odd_succ, ← hlast]
    exact Bool.eq_not.mpr (ne_of_beq_false hchange).symm

/-- Settles O43: the encoder measures the maximal runs, which alternate from the start symbol 0. -/
theorem pulsesAreRunLengthsOfSymbols : Obligations.PulsesAreRunLengthsOfSymbols := by
  intro stopEach bs w hbs _
  refine ⟨pulseEncode_eq_runs stopEach bs w, List.flatten_splitBy _ _, ?_⟩
  obtain ⟨σ, hσ⟩ := exists_symbols_eq_cons stopEach hbs
  rw [hσ]
  exact fun r hr => ⟨run_ne_nil (List.getElem_mem hr), symbol_of_run σ r hr⟩

/-! ### The number of runs (R156 (c), (f)) -/

theorem transitions_cons_cons (a b : Bool) (σ : List Bool) :
    transitions (a :: b :: σ) = transitions (b :: σ) + if a = b then 0 else 1 := by
  by_cases h : a = b <;> simp [transitions, h]

theorem splitByLoop_length (σ : List Bool) (a : Bool) (g : List Bool) (gs : List (List Bool)) :
    (List.splitBy.loop (· == ·) σ a g gs).length = gs.length + 1 + transitions (a :: σ) := by
  induction σ generalizing a g gs with
  | nil => simp [List.splitBy.loop, transitions]
  | cons b σ ih =>
    rw [transitions_cons_cons]
    by_cases h : a = b
    · subst h
      rw [splitByLoop_cons_same, ih, if_pos rfl]
      rfl
    · rw [splitByLoop_cons_change h, ih, if_neg h, List.length_cons]
      omega

/-- A stream has one run more than it has transitions. -/
theorem symbolRuns_length {σ : List Bool} (h : σ ≠ []) : (symbolRuns σ).length = 1 + transitions σ := by
  obtain ⟨a, σ, rfl⟩ := List.exists_cons_of_ne_nil h
  have hlength := splitByLoop_length σ a [] []
  rwa [List.length_nil, Nat.zero_add] at hlength

/-- A stream from 0 to 1 ends in an odd run. -/
theorem symbolRuns_length_even {σ : List Bool} (hlast : (false :: σ).getLast (List.cons_ne_nil false σ) = true) :
    (symbolRuns (false :: σ)).length % 2 = 0 := by
  have hne : symbolRuns (false :: σ) ≠ [] := List.splitBy_ne_nil.mpr (List.cons_ne_nil false σ)
  have hpos := List.length_pos_iff.mpr hne
  have hrun := run_ne_nil (List.getLast_mem hne)
  have hend : ((symbolRuns (false :: σ)).getLast hne).getLast hrun = true :=
    (List.getLast_getLast_splitBy _ (List.cons_ne_nil false σ)).trans hlast
  have hmem := List.getLast_mem hrun
  rw [hend, List.getLast_eq_getElem hne] at hmem
  have hodd := of_decide_eq_true (symbol_of_run σ _ _ true hmem).symm
  omega

/-- Settles O44, from the runs of the stream, which begins with 0 and ends with 1. -/
theorem pulseListTotals : Obligations.PulseListTotals := by
  intro bs w hbs hw
  have hlen : (pulsesOf Config.hardware bs w).length = (symbolRuns (symbols false bs)).length := by
    rw [pulsesOf, pulseEncode_eq_runs, List.length_map]
    rfl
  have hruns := symbolRuns_length (symbols_ne_nil false bs)
  have heven : (symbolRuns (symbols false bs)).length % 2 = 0 := by
    have hlast := symbols_getLast false bs
    obtain ⟨σ, hσ⟩ := exists_symbols_eq_cons false hbs
    simp only [hσ] at hlast ⊢
    exact symbolRuns_length_even hlast
  refine ⟨hlen ▸ heven, by omega, fun d hd => ?_, ?_, hlen.trans hruns⟩
  · rw [pulsesOf, pulseEncode_eq_runs] at hd
    obtain ⟨run, hrun, rfl⟩ := List.mem_map.mp hd
    exact ⟨run.length, List.length_pos_iff.mpr (run_ne_nil hrun), rfl⟩
  · rw [pulsesOf, pulseEncode_sum, symbols_length]
    rfl

/-! ### What fits PULSE_BUF (R159) -/

/-- A stream of at most `n` symbols has at most `n` durations, each at most `n` times the greatest width. -/
theorem pulseEncode_bounds {stopEach : Bool} {bs : List Byte} {w n : Nat} (hn : (symbols stopEach bs).length ≤ n)
    (hw : w ≤ 65535) :
    (pulseEncode stopEach bs w).length ≤ n ∧ ∀ d ∈ pulseEncode stopEach bs w, d ≤ 65535 * n :=
  ⟨(pulseEncode_length_le stopEach bs w).trans hn, fun d hd =>
    (pulseEncode_mem_le stopEach bs w d hd).trans (Nat.mul_le_mul hw hn)⟩

/-- Settles O45: 128 bytes have at most 1153 symbols with one stop, and at most 1280 with a stop each byte. -/
theorem pulsesFitTheBuffer : Obligations.PulsesFitTheBuffer := by
  intro bs w hbs hw
  have hone : (symbols false bs).length ≤ 1153 := by
    rw [symbols_length, if_neg Bool.false_ne_true]
    omega
  have heach : (symbols true bs).length ≤ 1280 := by
    rw [symbols_length, if_pos rfl]
    omega
  obtain ⟨hcount, hwidth⟩ := pulseEncode_bounds hone hw
  obtain ⟨hcount', hwidth'⟩ := pulseEncode_bounds heach hw
  exact ⟨hcount, hwidth, hcount', hwidth', by decide⟩

end Sys2Proof.Machine
end
